-- ==== Sys2Proof/Word.lean ====
section
/-! DEFINITION. The widths of the machine's values (00_scope.md R6, R8): bytes, register words, the flags word and
program-counter values, and the file of eight general registers. -/

namespace Sys2Proof

/-- A store byte or an opcode: `OPC_BITS` = 8 (R6). -/
abbrev Byte := BitVec 8

/-- A general register, and an interrupt record's `number` and `priority` (R8: all 32 bits). -/
abbrev Word := BitVec 32

/-- The flags word: `FLAGS_BITS` = 32 (R8, R19). No bit of it has a meaning. -/
abbrev FlagsWord := BitVec 32

/-- A program-counter value: `PC_BITS` = 32 (R8, R18). -/
abbrev Addr := BitVec 32

/-- The number of program-counter values, `2^PC_BITS` (R10). -/
abbrev addrSpace : Nat := 2 ^ 32

/-- The eight general registers x[0] to x[7], all alike (R16). -/
abbrev Regs := Vector Word 8

end Sys2Proof
end

