-- ==== Sys2Proof/Config.lean ====
section
/-! DEFINITION. The configuration of a core (00_scope.md R6 to R9): the fixed values, the parameters as plain data,
and the three parameters no reader of the spec knows (the dispatch target, the extension handlers, the text a snapshot
prints as), which are constants with no body. -/

namespace Sys2Proof

/-- `NOP_OPC` (R6). -/
def nopOpcode : Byte := 0x90

/-- `NOP_LEN` (R6). -/
def nopLen : Nat := 1

/-- `UNK_SKIP`: the bytes skipped on an unregistered opcode (R6). -/
def unknownSkip : Nat := 1

/-- One entry of `EXT_TABLE` as data: its opcode and its length (R9, R55). The entry's `sem` is `Handlers` at the opcode. -/
structure ExtEntry where
  opcode : Byte
  len : Nat
  deriving DecidableEq, Repr

/-- The parameters of 00_scope.md R7 and R9 that are data. `DISPATCH_TARGET < 2^PC_BITS` (R10) holds by its type. -/
structure Config where
  /-- `QUEUE_CAP`, C: the slots of the interrupt queue. -/
  queueCap : Nat
  /-- `BURST`, B: the most engine steps one Run performs. -/
  burst : Nat
  /-- `MAX_LEN`: the largest instruction length. -/
  maxLen : Nat
  /-- L: the length of the instruction store. -/
  storeLen : Nat
  /-- `DISPATCH_TARGET`: where interrupt delivery sends pc. -/
  dispatchTarget : Addr
  /-- `EXT_TABLE`: the registered opcodes other than NOP. The first entry of an opcode is its entry. -/
  extTable : List ExtEntry
  /-- `INTERRUPT_POLL`: whether a step consults the queue. -/
  interruptPoll : Bool
  /-- `CASE_FOLD`: whether command tokens match case-insensitively. -/
  caseFold : Bool
  deriving DecidableEq, Repr

/-- An extension handler (30_encoding.md R55): a total function of the general registers, the flags and the operand
bytes, with new general registers and flags as its only output. -/
abbrev Handler := Regs → FlagsWord → List Byte → Regs × FlagsWord

/-- The `sem` part of `EXT_TABLE`: a handler for each opcode, consulted only for the opcodes the table registers. -/
abbrev Handlers := Byte → Handler

/-- The content of a snapshot event, in the order of 10_state.md R30. -/
structure Snapshot where
  pc : Addr
  flags : FlagsWord
  x : Regs
  deriving DecidableEq, Repr

/-- `DISPATCH_TARGET` of the core that `State.reset` describes: an open parameter (R9, D9), so a free value (log entry 3). -/
opaque Config.openDispatchTarget : Addr

/-- The handlers of the core's `EXT_TABLE` (R55, D25): free functions, so a claim holds for every handler (log entry 4). -/
opaque Config.extHandlers : Handlers

/-- `SNAPSHOT_FORMAT` (R9, D31): the text a host prints for a snapshot. No rule depends on it (log entry 5). -/
opaque Config.snapshotFormat : Snapshot → List Byte

/-- The base hardware (R7, R9) over a store of `len` bytes: the reference sizes, no extension, no poll, no case fold. -/
def Config.base (len : Nat) : Config where
  queueCap := 256
  burst := 1000
  maxLen := 1
  storeLen := len
  dispatchTarget := Config.openDispatchTarget
  extTable := []
  interruptPoll := false
  caseFold := false

end Sys2Proof
end

