-- ==== Sys2Proof/Syntax.lean ====
section
/-! DEFINITION. The instructions (spec/opcode_table.json, one row), the operator's commands
(10_state.md R29), and the assembler's statements (30_encoding.md R57). -/

namespace Sys2Proof

/-- The instructions of spec/opcode_table.json. NOP has no operand of any kind (30_encoding.md R51). -/
inductive Instr where
  /-- NOP, opcode 0x90, one byte (R50, R51). -/
  | nop
  deriving DecidableEq, Repr

/-- What one operator line means (10_state.md R29, 42_debugger_session.md R87). -/
inductive Command where
  /-- `go` -/
  | run
  /-- `next` -/
  | step
  /-- `stop` -/
  | halt
  /-- `state` -/
  | inspect
  /-- any other text -/
  | invalid
  deriving DecidableEq, Repr

/-- A statement of the assembler (30_encoding.md R57): an instruction, or one byte placed as it is. -/
inductive AsmStatement where
  /-- `NOP` -/
  | nop
  /-- `.byte v` -/
  | byte (v : Byte)
  deriving DecidableEq, Repr

end Sys2Proof
end

