-- ==== Sys2Proof/WellFormed.lean ====
section
/-! DEFINITION. Which configurations (00_scope.md R10) and which instructions are well-formed. -/

namespace Sys2Proof

/-- R10: the configurations a core can be constructed with. -/
abbrev Config.wf (c : Config) : Prop :=
  1 ≤ c.queueCap ∧ 1 ≤ c.burst ∧ 1 ≤ c.maxLen ∧ c.storeLen + c.maxLen ≤ addrSpace ∧
    (∀ e ∈ c.extTable, e.opcode ≠ nopOpcode) ∧ (∀ e ∈ c.extTable, 1 ≤ e.len ∧ e.len ≤ c.maxLen)

/-- The well-formed instructions. NOP has no operand, so no field of it can be ill-formed (30_encoding.md R51, R54). -/
def Instr.wellFormed : Instr → Bool
  | .nop => true

end Sys2Proof
end

