-- ==== Sys2Proof/Decode.lean ====
section
/-! DEFINITION. The decoder, the encoder and the decode table (30_encoding.md). -/

namespace Sys2Proof

/-- Why bytes decode to no instruction of the opcode table. -/
inductive DecodeError where
  /-- There is no opcode byte. -/
  | noOpcodeByte
  /-- The opcode byte is no instruction's (R52); `EXT_TABLE` may still give it an entry. -/
  | unregistered (op : Byte)
  deriving DecidableEq, Repr

/-- The instruction that stands first in a sequence of bytes, and the bytes after it (R47, R49 to R51): the opcode
byte's value alone decides. -/
def decode : List Byte → Except DecodeError (Instr × List Byte)
  | [] => .error .noOpcodeByte
  | op :: rest => if op = nopOpcode then .ok (.nop, rest) else .error (.unregistered op)

/-- The bytes of an instruction (R50, R51). -/
def encode : Instr → List Byte
  | .nop => [0x90]

/-- The bytes a program assembles to, from address 0 on (R57). -/
def assemble : List AsmStatement → List Byte
  | [] => []
  | .nop :: rest => encode .nop ++ assemble rest
  | .byte v :: rest => v :: assemble rest

/-- The length in bytes of an instruction (R6, R51). -/
def instrLen : Instr → Nat
  | .nop => nopLen

/-- The low `n` bytes of `w`, the least significant first: the order in which spec/opcode_table.json numbers bits. -/
def wordBytes : Nat → Nat → List Byte
  | 0, _ => []
  | n + 1, w => BitVec.ofNat 8 w :: wordBytes n (w / 256)

/-- The instruction the decoder reads from a word of the opcode table: `nbits` bits of `w`, laid out as bytes. -/
def decodeTableWord (nbits w : Nat) : Option Instr :=
  match decode (wordBytes (nbits / 8) (w % 2 ^ nbits)) with
  | .ok (i, _) => some i
  | .error _ => none

/-- An entry of the decode table: NOP's own, or one of `EXT_TABLE`'s with its length. -/
inductive TableEntry where
  | instr (i : Instr)
  | extension (len : Nat)
  deriving DecidableEq, Repr

/-- `EXT_TABLE(op).len`, where the table has an entry for `op` (R9). -/
def extLength (table : List ExtEntry) (op : Byte) : Option Nat :=
  match table with
  | [] => none
  | e :: rest => if e.opcode = op then some e.len else extLength rest op

/-- `DT(op)` (R48): the instruction of the opcode table, else the entry of `EXT_TABLE`, else `none`. -/
def decodeTable (c : Config) (op : Byte) : Option TableEntry :=
  match decode [op] with
  | .ok (i, _) => some (.instr i)
  | .error _ => (extLength c.extTable op).map .extension

/-- `DT(op).len` (R48). -/
def entryLen : TableEntry → Nat
  | .instr i => instrLen i
  | .extension n => n

end Sys2Proof
end

