-- ==== Sys2Proof/Machine/State.lean ====
section
/-! DEFINITION. The state of the core (10_state.md R15 to R34), the inputs of its ports, the results it returns, and
the reasons a step can stop. -/

namespace Sys2Proof.Machine

/-- The kinds of an interrupt record (R21); the two-bit value 3 is no kind. -/
inductive Kind where
  | hardware
  | software
  | virtual
  deriving DecidableEq, Repr

/-- An interrupt record (R21). No rule of the core reads a field of it. -/
structure Interrupt where
  kind : Kind
  number : Word
  priority : Word
  deriving DecidableEq, Repr

/-- An interrupt as a port carries it, its kind still the two-bit field of R21. -/
structure RawInterrupt where
  kind : BitVec 2
  number : Word
  priority : Word
  deriving DecidableEq, Repr

/-- The interrupt queue (R22, R23): C slots and two indices. -/
structure Queue where
  slots : List Interrupt
  head : Nat
  tail : Nat
  deriving DecidableEq, Repr

/-- The store's contents (R25) as address and byte pairs in one canonical form: `Memory.wf`. -/
abbrev Memory := List Host.Cell

/-- What an unlisted address of the store holds: the representation lists exactly the nonzero bytes (log entry 1). -/
def Memory.unlisted : Byte := 0x00

/-- The canonical form: addresses strictly rising, and no entry equal to what an unlisted address holds. -/
abbrev Memory.wf (m : Memory) : Prop :=
  m.Pairwise (fun c d => c.1 < d.1) ∧ ∀ c ∈ m, c.2 ≠ Memory.unlisted

/-- The session state (R27). Stepping, Running and Inspecting last only inside one transaction (R28). -/
inductive SessionState where
  | idle
  | stepping
  | running
  | inspecting
  | halted
  deriving DecidableEq, Repr

/-- A diagnostic with its payload (60_exceptions.md R105, codes 1, 2 and 5). -/
inductive Diagnostic where
  | outOfBoundsFetch (pc : Addr)
  | unknownOpcode (op : Byte) (pc : Addr)
  | invalidCommand (line : List Byte)
  deriving DecidableEq, Repr

/-- An event of the output stream (R30). -/
inductive Event where
  | snapshot (content : Snapshot)
  | diagnostic (d : Diagnostic)
  deriving DecidableEq, Repr

/-- The result of one engine step (40_engine_step.md R60). -/
inductive StepResult where
  | ok
  | delivered (irq : Interrupt)
  | outOfBoundsFetch (pc : Addr)
  | unknownOpcode (op : Byte) (pc : Addr)
  deriving DecidableEq, Repr

/-- What stops the machine. No engine fault of the spec stands here: those are results the machine goes on after (R106). -/
inductive Fault where
  /-- Raised by the pc advance when the exact sum would pass `2^PC_BITS - 1`. No rule wraps a pc (R11), and R10 keeps
  the sum in range, so this stops only states that no core reaches: safe. -/
  | pcPastAddressSpace
  deriving DecidableEq, Repr

/-- Why an input is refused (R33: the transaction has no step), or an instruction has no meaning. All are safe: a refused
input changes no state of the core. -/
inductive Refusal where
  /-- Raised by an arm of `exec` for an instruction with no meaning; no arm of this model raises it. -/
  | notModelled (mnemonic : String)
  /-- Raised by P0 on a configuration that is not well-formed (R10, R125; F1). -/
  | illFormedConfiguration
  /-- Raised by P0 on a store image that is not L bytes in the canonical form (R25). -/
  | illFormedImage
  /-- Raised by P0 on a core that is already constructed (R125, R126). -/
  | alreadyConstructed
  /-- Raised by P1 to P6 when the session is not Idle (R33; F4). -/
  | sessionNotIdle
  /-- Raised by P3 and P5 on an interrupt of kind 3 (R21; F2). -/
  | noSuchKind
  /-- Raised by P6 on an address outside the store (20_memory.md R42; F3). -/
  | addressOutsideStore
  deriving DecidableEq, Repr

/-- What a port returns to its caller (R33, column "result"). -/
inductive PortResult where
  /-- P1 and P2 return nothing. -/
  | nothing
  | ok
  /-- P4's Ok with the record it dequeued. -/
  | okRecord (irq : Interrupt)
  | queueFull
  | queueEmpty
  /-- The port refused the input. -/
  | refused (why : Refusal)
  deriving DecidableEq, Repr

/-- One input at a port (R33). -/
inductive Input where
  /-- P0 -/
  | construct (cfg : Config) (image : Memory)
  /-- P1: one line of operator text, its terminator included if it has one (42_debugger_session.md R88). -/
  | line (text : List Byte)
  /-- P2 -/
  | endOfInput
  /-- P3 -/
  | enqueue (irq : RawInterrupt)
  /-- P4 -/
  | dequeue
  /-- P5 -/
  | deliver (irq : RawInterrupt)
  /-- P6 -/
  | storeWrite (addr : Nat) (b : Byte)
  deriving DecidableEq, Repr

/-- The state of a constructed core (R32), its configuration, which no transaction changes (R34), and two fields of the
model's own: the inputs its ports will be offered, and what the last transaction returned. -/
structure State where
  /-- The configuration P0 was given (R34: not state of the hardware; log entry 2). -/
  cfg : Config
  /-- x[0] to x[7] (R16). -/
  x : Regs
  /-- The program counter (R18). -/
  pc : Addr
  /-- The flags word (R19). -/
  flags : FlagsWord
  /-- The engine-local pending-interrupt bit (R20). -/
  pend : Bool
  /-- q.slot, q.head and q.tail (R22, R23). -/
  queue : Queue
  /-- The instruction store's bytes (R25). -/
  mem : Memory
  /-- The session state (R27). -/
  sess : SessionState
  /-- The output stream, oldest event first (R30). -/
  output : List Event
  /-- The model's own: the inputs the outside world will offer, first one first (log entry 6). -/
  inputs : List Input
  /-- The model's own: what the last transaction returned to its caller (log entry 7). -/
  lastResult : PortResult
  deriving DecidableEq, Repr

/-- Every way an operation of the machine can answer. -/
abbrev Answer (α : Type) := Host.Outcome α Fault Refusal

/-- The record `State.reset` has in every slot; the spec leaves a slot's contents unspecified and unobservable
(R22, U1; log entry 8). -/
def Interrupt.unspecified : Interrupt := ⟨.hardware, 0, 0⟩

/-- `s` with its program counter at `v`. -/
def State.setPc (s : State) (v : Addr) : State := { s with pc := v }

/-- `s` with the general registers and the flags that a handler returned. -/
def State.setRegs (s : State) (x : Regs) (flags : FlagsWord) : State := { s with x := x, flags := flags }

/-- `s` with its pending bit at `b`. -/
def State.setPend (s : State) (b : Bool) : State := { s with pend := b }

/-- `s` with queue `q`. -/
def State.setQueue (s : State) (q : Queue) : State := { s with queue := q }

/-- `s` with store contents `m`. -/
def State.setMem (s : State) (m : Memory) : State := { s with mem := m }

/-- `s` in session state `v`. -/
def State.setSess (s : State) (v : SessionState) : State := { s with sess := v }

/-- `emit e` (R12, R30): the one operation that appends to the output stream. -/
def State.emit (s : State) (e : Event) : State := { s with output := s.output ++ [e] }

/-- `s` with the inputs `is` still to be offered. -/
def State.setInputs (s : State) (is : List Input) : State := { s with inputs := is }

/-- `s` after a transaction that returned `r`. -/
def State.setResult (s : State) (r : PortResult) : State := { s with lastResult := r }

/-- The core right after construction (70_reset_and_hazards.md R125, 10_state.md R32), in the base configuration over the
largest store that R10 admits, with a store image of zeros (log entry 1). -/
def State.reset : State where
  cfg := Config.base (addrSpace - 1)
  x := Vector.replicate 8 0
  pc := 0
  flags := 0
  pend := false
  queue := ⟨List.replicate 256 Interrupt.unspecified, 0, 0⟩
  mem := []
  sess := .idle
  output := []
  inputs := []
  lastResult := .nothing

end Sys2Proof.Machine
end

