-- ==== Sys2Proof/Machine/Ops.lean ====
section
/-! DEFINITION. The named operations over the store, the program counter and the outcomes of a step, and taking an
interrupt. -/

namespace Sys2Proof.Machine

/-- One operation after another: the second runs on what the first answers with, unless the first stopped. -/
def andThen {α β : Type} (o : Answer α) (k : α → Answer β) : Answer β :=
  match o with
  | .next a => k a
  | .fault r => .fault r
  | .refused r => .refused r

/-- The byte that store contents `m` hold at `a` (R25). -/
def Memory.read : Memory → Nat → Byte
  | [], _ => Memory.unlisted
  | (k, b) :: rest, a => if k = a then b else Memory.read rest a

/-- Store contents `m` with byte `b` at `a`, in the canonical form. -/
def Memory.write : Memory → Nat → Byte → Memory
  | [], a, b => if b = Memory.unlisted then [] else [(a, b)]
  | (k, v) :: rest, a, b =>
    if k < a then (k, v) :: Memory.write rest a b
    else if k = a then (if b = Memory.unlisted then rest else (a, b) :: rest)
    else if b = Memory.unlisted then (k, v) :: rest else (a, b) :: (k, v) :: rest

/-- Bytes written to consecutive addresses from `a` on. -/
def Memory.writeBytes : Memory → Nat → List Byte → Memory
  | m, _, [] => m
  | m, a, b :: bs => Memory.writeBytes (Memory.write m a b) (a + 1) bs

/-- Store contents that hold `bs` at addresses 0, 1, … (a `STORE_IMAGE` given byte by byte, R25). -/
def Memory.ofBytes (bs : List Byte) : Memory := Memory.writeBytes [] 0 bs

/-- `MemRead(a, 1)` (R12, 20_memory.md R37): the store byte at `a`; every caller has checked `a < L`. -/
def memRead (s : State) (a : Nat) : Byte := Memory.read s.mem a

/-- `MemRead(a, n)` (R12): n bytes in ascending address order. -/
def memReadBytes (s : State) (a : Nat) : Nat → List Byte
  | 0 => []
  | n + 1 => memRead s a :: memReadBytes s (a + 1) n

/-- `MemWrite(a, 1, b)` (R12): the host's write of one store byte (20_memory.md R42). -/
def memWrite (s : State) (a : Nat) (b : Byte) : State := s.setMem (Memory.write s.mem a b)

/-- `x[i]` (R12). -/
def readReg (s : State) (i : Fin 8) : Word := s.x[i]

/-- `pc <- pc + n` in exact natural arithmetic (R11). A sum past the address space is no pc value, and no rule wraps one. -/
def advancePc (s : State) (n : Nat) : Answer State :=
  if s.pc.toNat + n < addrSpace then .next (s.setPc (BitVec.ofNat 32 (s.pc.toNat + n)))
  else .fault .pcPastAddressSpace

/-- Taking an interrupt: `Deliver(irq)` (60_exceptions.md R110). pc goes to the one dispatch target and `pend` is cleared;
no field of the record is read, and no pc, status or context is saved. There is no return from it: no instruction and no
port restores anything (R113), so no return operation stands beside this one. -/
def deliver (_irq : Interrupt) (s : State) : State := (s.setPc s.cfg.dispatchTarget).setPend false

/-- The interrupt record a port's two-bit kind field stands for; the value 3 is no kind (R21). -/
def recordOf (r : RawInterrupt) : Option Interrupt :=
  if r.kind = 0 then some ⟨.hardware, r.number, r.priority⟩
  else if r.kind = 1 then some ⟨.software, r.number, r.priority⟩
  else if r.kind = 2 then some ⟨.virtual, r.number, r.priority⟩
  else none

/-- The code of a step result (60_exceptions.md R105). -/
def StepResult.code : StepResult → Nat
  | .ok => 0
  | .outOfBoundsFetch _ => 1
  | .unknownOpcode _ _ => 2
  | .delivered _ => 6

/-- The code of a diagnostic (R105). -/
def Diagnostic.code : Diagnostic → Nat
  | .outOfBoundsFetch _ => 1
  | .unknownOpcode _ _ => 2
  | .invalidCommand _ => 5

/-- The code of what a port returns, where it returns something (R105). -/
def PortResult.code : PortResult → Option Nat
  | .nothing => none
  | .ok => some 0
  | .okRecord _ => some 0
  | .queueFull => some 3
  | .queueEmpty => some 4
  | .refused _ => none

/-- The encoding of the session state (10_state.md R27). -/
def SessionState.code : SessionState → Nat
  | .idle => 0
  | .stepping => 1
  | .running => 2
  | .inspecting => 3
  | .halted => 4

/-- The two-bit encoding of an interrupt kind (10_state.md R21). -/
def Kind.code : Kind → BitVec 2
  | .hardware => 0
  | .software => 1
  | .virtual => 2

end Sys2Proof.Machine
end

