-- ==== Sys2Proof/Machine/Operands.lean ====
section
/-! DEFINITION. The one operand form: the operand bytes of an extension entry (20_memory.md R38, 30_encoding.md R54). NOP
has no operand. -/

namespace Sys2Proof.Machine

/-- The operand bytes of an instruction of length `len` at pc: `MemRead(pc + 1, len - 1)` (40_engine_step.md R59). They
reach the handler uninterpreted. -/
def readOperands (s : State) (len : Nat) : List Byte := memReadBytes s (s.pc.toNat + 1) (len - 1)

end Sys2Proof.Machine
end

