-- ==== Sys2Proof/Machine/Flags.lean ====
section
/-! DEFINITION. The flags word (10_state.md R19). The spec gives no flag bit and no flag computation: NOP leaves the word
as it is, and an extension handler returns a whole new word together with the general registers. -/

namespace Sys2Proof.Machine

/-- `(x[0..7], flags) <- sem(x[0..7], flags, ops)` (40_engine_step.md R59): the one write of the flags word and of the
general registers. The handler sees both as they stand before the step (R66). -/
def applyHandler (f : Handler) (ops : List Byte) (s : State) : State :=
  s.setRegs (f s.x s.flags ops).1 (f s.x s.flags ops).2

end Sys2Proof.Machine
end

