-- ==== Sys2Proof/Machine/NoOperation.lean ====
section
/-! DEFINITION. The no-operation family: NOP (40_engine_step.md R63). -/

namespace Sys2Proof.Machine

/-- NOP (R63): `pc <- pc + 1`, and nothing else. -/
def execNop (s : State) : Answer State := advancePc s nopLen

end Sys2Proof.Machine
end

