-- ==== Sys2Proof/Machine/Extension.lean ====
section
/-! DEFINITION. The extension entries (40_engine_step.md R66): registered opcodes other than NOP's, in a configuration
whose `EXT_TABLE` has them. -/

namespace Sys2Proof.Machine

/-- Phase 4 of the step for an extension entry whose bytes all lie in the store: read the operand bytes, apply the
handler, advance pc by the entry's length (R66). The handler cannot branch (30_encoding.md R55). -/
def execExtension (f : Handler) (len : Nat) (s : State) : Answer State :=
  advancePc (applyHandler f (readOperands s len) s) len

end Sys2Proof.Machine
end

