-- ==== Sys2Proof/Machine/InterruptQueue.lean ====
section
/-! DEFINITION. The interrupt queue and its selector (41_interrupt_queue.md): a bounded FIFO of `cap` slots. -/

namespace Sys2Proof.Machine

/-- The number of stored entries, `(q.tail - q.head) mod C` (10_state.md R24). -/
def queueCount (cap : Nat) (q : Queue) : Nat := (q.tail + cap - q.head) % cap

/-- The record in slot `k`. A queue of the spec has `cap` slots and both indices below `cap` (R22, R23). -/
def slotAt (q : Queue) (k : Nat) : Interrupt := q.slots.getD k Interrupt.unspecified

/-- The stored entries, oldest first: `q.slot[(q.head + k) mod C]` for `k` below the count (R24). -/
def queueEntries (cap : Nat) (q : Queue) : List Interrupt :=
  (List.range (queueCount cap q)).map fun k => slotAt q ((q.head + k) % cap)

/-- `Enqueue(irq)` (R75): `none` is QueueFull, which writes nothing (R76). -/
def enqueue (cap : Nat) (irq : Interrupt) (q : Queue) : Option Queue :=
  if queueCount cap q = cap - 1 then none
  else some { q with slots := q.slots.set q.tail irq, tail := (q.tail + 1) % cap }

/-- `Dequeue()` (R77): `none` is QueueEmpty, which writes nothing (R78). The selector is the slot at head, whatever any
record's fields say (R79). -/
def dequeue (cap : Nat) (q : Queue) : Option (Interrupt × Queue) :=
  if q.head = q.tail then none
  else some (slotAt q q.head, { q with head := (q.head + 1) % cap })

end Sys2Proof.Machine
end

