-- ==== Sys2Proof/Machine/Engine.lean ====
section
/-! DEFINITION. The execution engine's step() (40_engine_step.md R59), phase by phase, for any extension handlers. -/

namespace Sys2Proof.Machine

/-- Phase 0 (R61): with `INTERRUPT_POLL` set and the queue not empty, the oldest entry and the state after its dequeue. -/
def pollQueue (s : State) : Option (Interrupt × State) :=
  if s.cfg.interruptPoll then (dequeue s.cfg.queueCap s.queue).map fun p => (p.1, s.setQueue p.2)
  else none

/-- The opcode byte at pc (R59, phase 2). -/
def fetchOpcode (s : State) : Byte := memRead s s.pc.toNat

/-- The handler of a decode-table entry, applied, with the pc advance (R59, phase 4). -/
def runEntry (h : Handlers) (op : Byte) (e : TableEntry) (s : State) : Answer State :=
  match e with
  | .instr i => exec i s
  | .extension len => execExtension (h op) len s

/-- Phases 1 to 4 (R59): the bounds check, fetch and decode, the unregistered opcode, the registered handler. -/
def fetchAndExecute (h : Handlers) (s : State) : Answer (State × StepResult) :=
  if s.cfg.storeLen ≤ s.pc.toNat then .next (s, .outOfBoundsFetch s.pc)
  else
    match decodeTable s.cfg (fetchOpcode s) with
    | none => andThen (advancePc s unknownSkip) fun t => .next (t, .unknownOpcode (fetchOpcode s) s.pc)
    | some e =>
      if s.cfg.storeLen < s.pc.toNat + entryLen e then .next (s, .outOfBoundsFetch s.pc)
      else andThen (runEntry h (fetchOpcode s) e s) fun t => .next (t, .ok)

/-- step() (R59): a delivery if phase 0 takes one, else phases 1 to 4. -/
def engineStep (h : Handlers) (s : State) : Answer (State × StepResult) :=
  match pollQueue s with
  | some (irq, t) => .next (deliver irq t, .delivered irq)
  | none => fetchAndExecute h s

end Sys2Proof.Machine
end

