-- ==== Sys2Proof/Machine/Session.lean ====
section
/-! DEFINITION. The debugger session (42_debugger_session.md): lines, commands and the output they emit. -/

namespace Sys2Proof.Machine

/-- Line feed (R88). -/
def lineFeed : Byte := 0x0A

/-- Carriage return (R88). -/
def carriageReturn : Byte := 0x0D

/-- The token `go` (R87). -/
def tokenGo : List Byte := [0x67, 0x6F]

/-- The token `next` (R87). -/
def tokenNext : List Byte := [0x6E, 0x65, 0x78, 0x74]

/-- The token `stop` (R87). -/
def tokenStop : List Byte := [0x73, 0x74, 0x6F, 0x70]

/-- The token `state` (R87). -/
def tokenState : List Byte := [0x73, 0x74, 0x61, 0x74, 0x65]

/-- A line without its terminator (R88): a final line feed goes, and a carriage return just before it. -/
def stripTerminator (s : List Byte) : List Byte :=
  if s.getLast? = some lineFeed then
    if s.dropLast.getLast? = some carriageReturn then s.dropLast.dropLast else s.dropLast
  else s

/-- `lowercase_ASCII` on one byte (R87). -/
def lowerByte (b : Byte) : Byte := if 0x41 ≤ b ∧ b ≤ 0x5A then b + 0x20 else b

/-- The text the tokens are compared with: the line without its terminator, lower-cased when `CASE_FOLD` is set (R87). -/
def matchText (caseFold : Bool) (s : List Byte) : List Byte :=
  if caseFold then (stripTerminator s).map lowerByte else stripTerminator s

/-- `Parse(s)` (R87): a line selects the token it starts with, byte for byte. -/
def parseLine (caseFold : Bool) (s : List Byte) : Command :=
  if tokenGo.isPrefixOf (matchText caseFold s) then .run
  else if tokenNext.isPrefixOf (matchText caseFold s) then .step
  else if tokenStop.isPrefixOf (matchText caseFold s) then .halt
  else if tokenState.isPrefixOf (matchText caseFold s) then .inspect
  else .invalid

/-- The lines of a stream of operator bytes after `cur`, each with its terminator; a final sequence of bytes without a line
feed is a line (R88). -/
def splitLines : List Byte → List Byte → List (List Byte)
  | cur, [] => if cur = [] then [] else [cur]
  | cur, b :: bs =>
    if b = lineFeed then (cur ++ [b]) :: splitLines [] bs else splitLines (cur ++ [b]) bs

/-- The inputs that a stream of operator bytes, up to its end, presents: P1 for each line, then P2 (R88). -/
def operatorInputs (text : List Byte) : List Input := (splitLines [] text).map .line ++ [.endOfInput]

/-- A snapshot of the registers as they stand (10_state.md R30). -/
def snapshotOf (s : State) : Snapshot := ⟨s.pc, s.flags, s.x⟩

/-- `EmitResult(r)` (R90). -/
def emitResult (r : StepResult) (s : State) : State :=
  match r with
  | .ok => s
  | .delivered _ => s
  | .outOfBoundsFetch p => s.emit (.diagnostic (.outOfBoundsFetch p))
  | .unknownOpcode op a => s.emit (.diagnostic (.unknownOpcode op a))

/-- The end of Step, Run and Inspect: one snapshot of the state, then back to Idle (R89, R91, R95). -/
def finishCommand (s : State) : State := (s.emit (.snapshot (snapshotOf s))).setSess .idle

/-- Step, `next` (R89): exactly one engine step. -/
def commandStep (h : Handlers) (s : State) : Answer State :=
  andThen (engineStep h (s.setSess .stepping)) fun p => .next (finishCommand (emitResult p.2 p.1))

/-- Whether a result is the terminal condition of a burst (R92). -/
def StepResult.endsBurst : StepResult → Bool
  | .outOfBoundsFetch _ => true
  | .ok => false
  | .delivered _ => false
  | .unknownOpcode _ _ => false

/-- The loop of Run with `n` steps left (R91): it ends at the first OutOfBoundsFetch. -/
def runBurst (h : Handlers) : Nat → State → Answer State
  | 0, s => .next s
  | n + 1, s =>
    andThen (engineStep h s) fun p =>
      if p.2.endsBurst then .next (emitResult p.2 p.1) else runBurst h n (emitResult p.2 p.1)

/-- Run, `go` (R91): a burst of at most B steps. -/
def commandRun (h : Handlers) (s : State) : Answer State :=
  andThen (runBurst h s.cfg.burst (s.setSess .running)) fun t => .next (finishCommand t)

/-- Inspect, `state` (R95): a snapshot without the engine. -/
def commandInspect (s : State) : State := finishCommand (s.setSess .inspecting)

/-- Halt, `stop` (R96), and the effect of end of input (R99). -/
def commandHalt (s : State) : State := s.setSess .halted

/-- An invalid command (R98): one diagnostic that carries the line without its terminator. -/
def commandInvalid (text : List Byte) (s : State) : State :=
  s.emit (.diagnostic (.invalidCommand (stripTerminator text)))

/-- The transaction of a line in Idle (R86): parse it and perform the one command it selects. -/
def runLine (h : Handlers) (text : List Byte) (s : State) : Answer State :=
  match parseLine s.cfg.caseFold text with
  | .run => commandRun h s
  | .step => commandStep h s
  | .halt => .next (commandHalt s)
  | .inspect => .next (commandInspect s)
  | .invalid => .next (commandInvalid text s)

/-- The text a host prints for the snapshots of an output stream (R30): presentation, outside the contract. -/
def printedSnapshots : List Event → List (List Byte)
  | [] => []
  | .snapshot c :: rest => Config.snapshotFormat c :: printedSnapshots rest
  | .diagnostic _ :: rest => printedSnapshots rest

end Sys2Proof.Machine
end

