-- ==== Sys2Proof/Machine/Ports.lean ====
section
/-! DEFINITION. The ports of the core (10_state.md R33): which input a port accepts, what its transaction does, and the
machine's step, which offers the next input. -/

namespace Sys2Proof.Machine

/-- P0 Construct (70_reset_and_hazards.md R125): the core's reset. `slots` are the slots' contents before anything is
enqueued, which the spec leaves unspecified (R22). -/
def construct (slots : Nat → Interrupt) (cfg : Config) (image : Memory) : Answer State :=
  if ¬ cfg.wf then .refused .illFormedConfiguration
  else if ¬ (Memory.wf image ∧ ∀ c ∈ image, c.1 < cfg.storeLen) then .refused .illFormedImage
  else .next {
    cfg := cfg
    x := Vector.replicate 8 0
    pc := 0
    flags := 0
    pend := false
    queue := ⟨(List.range cfg.queueCap).map slots, 0, 0⟩
    mem := image
    sess := .idle
    output := []
    inputs := []
    lastResult := .nothing }

/-- P3 Enqueue in Idle (R33, 41_interrupt_queue.md R75). -/
def portEnqueue (raw : RawInterrupt) (s : State) : Answer (State × PortResult) :=
  match recordOf raw with
  | none => .refused .noSuchKind
  | some irq =>
    match enqueue s.cfg.queueCap irq s.queue with
    | none => .next (s, .queueFull)
    | some q => .next (s.setQueue q, .ok)

/-- P4 Dequeue in Idle (R77, R78): the record goes to the host and is not delivered. -/
def portDequeue (s : State) : Answer (State × PortResult) :=
  match dequeue s.cfg.queueCap s.queue with
  | none => .next (s, .queueEmpty)
  | some (irq, q) => .next (s.setQueue q, .okRecord irq)

/-- P5 Deliver in Idle (60_exceptions.md R110). -/
def portDeliver (raw : RawInterrupt) (s : State) : Answer (State × PortResult) :=
  match recordOf raw with
  | none => .refused .noSuchKind
  | some irq => .next (deliver irq s, .ok)

/-- P6 StoreWrite in Idle (20_memory.md R42). -/
def portStoreWrite (addr : Nat) (b : Byte) (s : State) : Answer (State × PortResult) :=
  if addr < s.cfg.storeLen then .next (memWrite s addr b, .ok) else .refused .addressOutsideStore

/-- P1 Line in Idle (42_debugger_session.md R86). -/
def portLine (h : Handlers) (text : List Byte) (s : State) : Answer (State × PortResult) :=
  andThen (runLine h text s) fun t => .next (t, .nothing)

/-- An input that P1 to P6 accept only in Idle. -/
def whenIdle (s : State) (o : Answer (State × PortResult)) : Answer (State × PortResult) :=
  if s.sess = .idle then o else .refused .sessionNotIdle

/-- One transaction at a port of a constructed core (R33): `refused` means that it has no step. -/
def transact (h : Handlers) (i : Input) (s : State) : Answer (State × PortResult) :=
  match i with
  | .construct _ _ => .refused .alreadyConstructed
  | .line text => whenIdle s (portLine h text s)
  | .endOfInput => whenIdle s (.next (commandHalt s, .nothing))
  | .enqueue raw => whenIdle s (portEnqueue raw s)
  | .dequeue => whenIdle s (portDequeue s)
  | .deliver raw => whenIdle s (portDeliver raw s)
  | .storeWrite addr b => whenIdle s (portStoreWrite addr b s)

/-- The machine's step for the handlers `h`: the next input that the outside world offers is taken, and its transaction
happens; with no input the core waits as it is (R104). A refused input is withdrawn, and the core and its output stay as
they are (R33; log entry 6). -/
def offerNextInput (h : Handlers) (s : State) : Answer State :=
  match s.inputs with
  | [] => .next s
  | i :: rest =>
    match transact h i (s.setInputs rest) with
    | .next (t, r) => .next (t.setResult r)
    | .fault r => .fault r
    | .refused r => .next ((s.setInputs rest).setResult (.refused r))

/-- `s` with one instruction at pc, and all else that the very next step needs to run it: the store reaches past the
instruction, no polled interrupt comes first, the session is Idle, and the operator's next line is `next`. -/
def placeInstruction (s : State) (nbits w : Nat) : State :=
  { s with
    cfg := { s.cfg with storeLen := max s.cfg.storeLen (s.pc.toNat + max s.cfg.maxLen (nbits / 8)) }
    mem := Memory.writeBytes s.mem s.pc.toNat (wordBytes (max s.cfg.maxLen (nbits / 8)) (w % 2 ^ nbits))
    queue := if s.cfg.interruptPoll then { s.queue with head := s.queue.tail } else s.queue
    sess := .idle
    inputs := [.line tokenNext] }

end Sys2Proof.Machine
end

