-- ==== Sys2Proof/Machine/Step.lean ====
section
/-! DEFINITION. One step of the machine, and the placing of an instruction where the next step runs it. -/

namespace Sys2Proof.Machine

/-- One step: the next port transaction (00_scope.md R5, 10_state.md R33), with the core's own extension handlers. -/
def step (s : State) : Host.Outcome State Fault Refusal := offerNextInput Config.extHandlers s

/-- `s` with the instruction of a word of the opcode table placed so that the very next step runs it (log entry 9). -/
def State.withFetchWord (s : State) (nbits w : Nat) : State := placeInstruction s nbits w

end Sys2Proof.Machine
end

