-- ==== Sys2Proof/Safety.lean ====
section
/-! DEFINITION. Which states are the spec's states, which inputs a port accepts, and the runs that claims speak of: engine
steps one after another, and sequences of queue operations. -/

namespace Sys2Proof.Machine

/-- A queue of `cap` slots with both indices below `cap` (10_state.md R22, R23). -/
abbrev queueSound (cap : Nat) (q : Queue) : Prop := q.slots.length = cap ∧ q.head < cap ∧ q.tail < cap

/-- Store contents in the canonical form whose listed addresses all exist (10_state.md R25, 20_memory.md R35). -/
abbrev storeSound (s : State) : Prop := Memory.wf s.mem ∧ ∀ c ∈ s.mem, c.1 < s.cfg.storeLen

/-- What holds between two engine steps, inside a transaction too: a well-formed configuration (00_scope.md R10), a queue
and a store of its sizes, and `pend` = 0 (10_state.md R20). -/
abbrev engineSound (s : State) : Prop :=
  s.cfg.wf ∧ queueSound s.cfg.queueCap s.queue ∧ storeSound s ∧ s.pend = false

/-- What holds at every transaction boundary: `engineSound`, and the session is Idle or Halted (10_state.md R28). -/
abbrev coreSound (s : State) : Prop := engineSound s ∧ (s.sess = .idle ∨ s.sess = .halted)

/-- The base hardware's decode table: no extension entry (00_scope.md R9). -/
abbrev baseTable (s : State) : Prop := s.cfg.extTable = []

/-- x[0] to x[7] and flags are 0 (40_engine_step.md R67). -/
abbrev registersZero (s : State) : Prop := (∀ i : Fin 8, s.x[i] = 0) ∧ s.flags = 0

/-- A run so far without an engine fault, read from its output stream (60_exceptions.md R106). -/
def noEngineFault : List Event → Bool
  | [] => true
  | .snapshot _ :: rest => noEngineFault rest
  | .diagnostic (.invalidCommand _) :: rest => noEngineFault rest
  | .diagnostic (.outOfBoundsFetch _) :: _ => false
  | .diagnostic (.unknownOpcode _ _) :: _ => false

/-- Which inputs the ports accept (10_state.md R33, R21; 20_memory.md R42). P0 is accepted once, before the core exists. -/
def accepts (s : State) : Input → Prop
  | .construct _ _ => False
  | .line _ => s.sess = .idle
  | .endOfInput => s.sess = .idle
  | .enqueue raw => s.sess = .idle ∧ raw.kind ≠ 3
  | .dequeue => s.sess = .idle
  | .deliver raw => s.sess = .idle ∧ raw.kind ≠ 3
  | .storeWrite a _ => s.sess = .idle ∧ a < s.cfg.storeLen

/-- No interrupt comes before the next fetch: the poll is off or the queue is empty (40_engine_step.md R61). -/
abbrev noPoll (s : State) : Prop := s.cfg.interruptPoll = false ∨ s.queue.head = s.queue.tail

/-- Every byte of the store reads in `t` as in `s`. -/
def sameStore (s t : State) : Prop := ∀ a, memRead t a = memRead s a

/-- The general registers, the flags word and `pend` are in `t` as in `s`. -/
def sameRegisters (s t : State) : Prop :=
  (∀ i : Fin 8, readReg t i = readReg s i) ∧ t.flags = s.flags ∧ t.pend = s.pend

/-- `n` engine steps, one after another. -/
def engineRun (h : Handlers) : Nat → State → Answer State
  | 0, s => .next s
  | n + 1, s => andThen (engineStep h s) fun p => engineRun h n p.1

/-- `n` engine steps, each one's result emitted (42_debugger_session.md R90), whatever the results are. -/
def emittingRun (h : Handlers) : Nat → State → Answer State
  | 0, s => .next s
  | n + 1, s => andThen (engineStep h s) fun p => emittingRun h n (emitResult p.2 p.1)

/-- The result of engine step number `k`, counted from 0, of an emitting run from `s`. -/
def resultAt (h : Handlers) (k : Nat) (s : State) : Option StepResult :=
  match andThen (emittingRun h k s) fun t => engineStep h t with
  | .next (_, r) => some r
  | .fault _ => none
  | .refused _ => none

/-- An operation on the queue (41_interrupt_queue.md R80). -/
inductive QueueOp where
  | put (irq : Interrupt)
  | take
  deriving DecidableEq, Repr

/-- A sequence of queue operations: the queue after it, the records of the Enqueues that succeeded, and the records the
Dequeues returned, each in order (R80). -/
def runQueue (cap : Nat) : List QueueOp → Queue → Queue × List Interrupt × List Interrupt
  | [], q => (q, [], [])
  | .put irq :: ops, q =>
    match enqueue cap irq q with
    | none => runQueue cap ops q
    | some q' => ((runQueue cap ops q').1, irq :: (runQueue cap ops q').2.1, (runQueue cap ops q').2.2)
  | .take :: ops, q =>
    match dequeue cap q with
    | none => runQueue cap ops q
    | some (irq, q') => ((runQueue cap ops q').1, (runQueue cap ops q').2.1, irq :: (runQueue cap ops q').2.2)

/-- Enqueues of all of the records, which answers only if every one succeeds (R82). -/
def enqueueAll (cap : Nat) : List Interrupt → Queue → Option Queue
  | [], q => some q
  | irq :: rest, q =>
    match enqueue cap irq q with
    | none => none
    | some q' => enqueueAll cap rest q'

/-- `q` with `f` applied to the record in every slot (R79). -/
def mapRecords (f : Interrupt → Interrupt) (q : Queue) : Queue := { q with slots := q.slots.map f }

end Sys2Proof.Machine
end

