-- ==== Sys2Proof/Certificates/Slice0/Obligations.lean ====
section
/-! DEFINITION. The statements for the provers. `h` stands for the extension handlers, so every statement holds for every
`EXT_TABLE`; the configuration is a field of the state, so it holds for every configuration too. -/

open Sys2Proof Sys2Proof.Machine

/-! ## Construction and the whole machine -/

/-- R17, R125: P0 sets every part of the state to its construction value, refuses an ill-formed configuration, and is
refused by a core that exists. -/
def Obligations.ConstructSetsEveryPart : Prop :=
  (∀ (slots : Nat → Interrupt) (cfg : Config) (image : Memory), cfg.wf → Memory.wf image →
    (∀ c ∈ image, c.1 < cfg.storeLen) →
    ∃ t, construct slots cfg image = .next t ∧ t.cfg = cfg ∧ (∀ (a : Nat), memRead t a = Memory.read image a) ∧
      (∀ i : Fin 8, readReg t i = 0) ∧ t.pc = 0 ∧ t.flags = 0 ∧ t.pend = false ∧
      t.queue.slots.length = cfg.queueCap ∧ t.queue.head = 0 ∧ t.queue.tail = 0 ∧ t.sess = .idle ∧ t.output = []) ∧
  (∀ (slots : Nat → Interrupt) (cfg : Config) (image : Memory), ¬ cfg.wf →
    construct slots cfg image = .refused .illFormedConfiguration) ∧
  (∀ (h : Handlers) (s : State) (cfg : Config) (image : Memory),
    transact h (.construct cfg image) s = .refused .alreadyConstructed)

/-- `State.reset` is the state P0 constructs from the base configuration. The store length, the zero image and the record
in the slots are the model's choices (log entries 1 and 8). -/
def Obligations.ResetIsTheConstructedBaseCore : Prop :=
  construct (fun _ => Interrupt.unspecified) (Config.base (addrSpace - 1)) [] = .next State.reset

/-- The reset state meets the invariant that every step keeps. -/
def Obligations.ResetStateIsSound : Prop := coreSound State.reset

/-- Every step keeps the invariant: the configuration stays well-formed, the queue and the store keep their sizes and the
canonical form, `pend` stays 0, and the session is Idle or Halted at every transaction boundary. -/
def Obligations.EveryStepKeepsTheCoreSound : Prop :=
  ∀ (s t : State), coreSound s → step s = .next t → coreSound t

/-- From a state that meets the invariant the machine always answers a next state: nothing stops it. That it answers one
on a refused input and on no input too is the model's choice (log entry 6). -/
def Obligations.SoundCoreAlwaysSteps : Prop := ∀ (s : State), coreSound s → ∃ t, step s = .next t

/-- R14: a transaction on an accepted input returns a result and a next state; an input that the state does not accept
has no transition. -/
def Obligations.TransactionsAreTotalOnAcceptedInputs : Prop :=
  ∀ (h : Handlers) (s : State) (i : Input), coreSound s →
    (accepts s i → ∃ t r, transact h i s = .next (t, r)) ∧ (¬ accepts s i → ∃ why, transact h i s = .refused why)

/-- A refused input changes nothing of the core and nothing of the output; it is withdrawn (the model's choice, log
entry 6), and its caller sees the refusal. -/
def Obligations.RefusedInputLeavesTheCoreAlone : Prop :=
  ∀ (s : State) (i : Input) (rest : List Input), s.inputs = i :: rest → ¬ accepts s i →
    ∃ why, step s = .next ((s.setInputs rest).setResult (.refused why))

/-- While nothing is offered, the core stays as it is (42_debugger_session.md R104). R104 has no step happen then; that the
machine's step answers the same state is the model's choice (log entry 6). -/
def Obligations.WaitingChangesNothing : Prop := ∀ (s : State), s.inputs = [] → step s = .next s

/-- R34: no transaction changes the configuration, with it the decode table and the store's length. -/
def Obligations.ConfigurationNeverChanges : Prop :=
  ∀ (s t : State), step s = .next t →
    t.cfg = s.cfg ∧ t.cfg.storeLen = s.cfg.storeLen ∧ ∀ (op : Byte), decodeTable t.cfg op = decodeTable s.cfg op

/-- The output stream only grows, at its end (10_state.md R30). -/
def Obligations.OutputOnlyGrows : Prop := ∀ (s t : State), step s = .next t → s.output <+: t.output

/-- No port but the operator's line writes a general register or the flags, and of these only a delivery writes pc. -/
def Obligations.HostPortsLeaveTheRegistersAlone : Prop :=
  ∀ (h : Handlers) (i : Input) (s t : State) (r : PortResult), (∀ (text : List Byte), i ≠ .line text) →
    transact h i s = .next (t, r) →
    (∀ k : Fin 8, readReg t k = readReg s k) ∧ t.flags = s.flags ∧
      ((∀ (raw : RawInterrupt), i ≠ .deliver raw) → t.pc = s.pc ∧ t.pend = s.pend)

/-! ## Encoding -/

/-- Decode and encode agree in both directions: bytes decode to an instruction exactly when they begin with its encoding. -/
def Obligations.DecodeAndEncodeAgree : Prop :=
  ∀ (i : Instr) (bytes rest : List Byte), i.wellFormed = true →
    (decode bytes = .ok (i, rest) ↔ bytes = encode i ++ rest) ∧ (encode i).length = instrLen i

/-- Words written out from 30_encoding.md R50, R51 and R56: 0x90 is NOP, and its neighbours and the ends of the byte's
range are no instruction. -/
def Obligations.OpcodeWordsDecodeAsTheTableSays : Prop :=
  decode [0b10010000] = .ok (.nop, []) ∧ decode [0x90, 0xCC] = .ok (.nop, [0xCC]) ∧
    decode [0x8F] = .error (.unregistered 0x8F) ∧ decode [0x91] = .error (.unregistered 0x91) ∧
    decode [0x00] = .error (.unregistered 0x00) ∧ decode [0xFF] = .error (.unregistered 0xFF) ∧
    decodeTableWord 8 0x90 = some .nop ∧ decodeTableWord 8 0x91 = none

/-- R48, R53: DT holds NOP at 0x90, the extension table's entries elsewhere, and nothing else; every length is in
[1, MAX_LEN]. An opcode other than 0x90 has no entry exactly when the table lists none for it, and the only entry it lists
for an opcode is that opcode's. -/
def Obligations.DecodeTableHoldsNopAndTheExtensions : Prop :=
  ∀ c : Config, c.wf →
    decodeTable c 0x90 = some (.instr .nop) ∧ entryLen (.instr .nop) = 1 ∧
    (∀ (op : Byte) (len : Nat), op ≠ 0x90 → extLength c.extTable op = some len →
      decodeTable c op = some (.extension len)) ∧
    (∀ (op : Byte), op ≠ 0x90 → extLength c.extTable op = none → decodeTable c op = none) ∧
    (∀ (op : Byte), op ≠ 0x90 → (decodeTable c op = none ↔ ∀ e ∈ c.extTable, e.opcode ≠ op)) ∧
    (∀ e ∈ c.extTable, (∀ e' ∈ c.extTable, e'.opcode = e.opcode → e' = e) →
      decodeTable c e.opcode = some (.extension e.len)) ∧
    (∀ (op : Byte) (e : TableEntry), decodeTable c op = some e → 1 ≤ entryLen e ∧ entryLen e ≤ c.maxLen) ∧
    (∀ (s t : State), exec .nop s = .next t → t.x = s.x ∧ t.flags = s.flags)

/-! ## The engine step -/

/-- NOP completes wherever it can be fetched: pc one further in exact arithmetic, everything else unchanged. -/
def Obligations.NopCompletes : Prop :=
  ∀ (s : State), s.cfg.wf → s.pc.toNat < s.cfg.storeLen →
    ∃ t, exec .nop s = .next t ∧ t.pc.toNat = s.pc.toNat + 1 ∧ t = s.setPc t.pc

/-- The frame of NOP: no general register, flag, pending bit, queue field or store byte changes; only pc does. -/
def Obligations.NopFrame : Prop :=
  ∀ (s t : State), exec .nop s = .next t →
    sameRegisters s t ∧ sameStore s t ∧ t.queue = s.queue ∧ t.sess = s.sess ∧ t.output = s.output ∧ t.cfg = s.cfg

/-- Where NOP stops: only where the exact pc sum would pass the address space, which no constructed core reaches (the
model's own fault, log entry 10). -/
def Obligations.NopStopsOnlyPastTheAddressSpace : Prop :=
  ∀ (s : State), (addrSpace ≤ s.pc.toNat + 1 → exec .nop s = .fault .pcPastAddressSpace) ∧
    (s.pc.toNat + 1 < addrSpace → ∃ t, exec .nop s = .next t)

/-- R63: at pc < L on byte 0x90 the step answers Ok with pc one further and nothing else changed; NOP in the last byte
leaves pc = L, and the next step is out of bounds there. -/
def Obligations.NopStepAdvancesPcByOne : Prop :=
  ∀ (h : Handlers) (s : State), s.cfg.wf → noPoll s → s.pc.toNat < s.cfg.storeLen → memRead s s.pc.toNat = 0x90 →
    ∃ t, engineStep h s = .next (t, .ok) ∧ t.pc.toNat = s.pc.toNat + 1 ∧ t = s.setPc t.pc ∧
      sameRegisters s t ∧ sameStore s t ∧ t.queue = s.queue ∧
      (s.pc.toNat + 1 = s.cfg.storeLen →
        t.pc.toNat = s.cfg.storeLen ∧ engineStep h t = .next (t, .outOfBoundsFetch t.pc))

/-- A step runs the decoded instruction. The engine's step is `exec` of it with the result Ok; a burst runs it and goes on;
the machine's step on a line that reads as Step runs it in the session state Stepping, then emits one snapshot and is Idle. -/
def Obligations.StepRunsTheDecodedInstruction : Prop :=
  ∀ (h : Handlers) (s : State) (i : Instr) (n : Nat) (rest : List Byte), i.wellFormed = true → noPoll s →
    s.pc.toNat + n ≤ s.cfg.storeLen →
    decode (memReadBytes s s.pc.toNat n) = .ok (i, rest) →
    engineStep h s = andThen (exec i s) (fun t => .next (t, .ok)) ∧
    (∀ (k : Nat), runBurst h (k + 1) s = andThen (exec i s) (fun t => runBurst h k t)) ∧
    (∀ (text : List Byte) (more : List Input), s.sess = .idle → s.inputs = .line text :: more →
      parseLine s.cfg.caseFold text = .step →
      step s = andThen (exec i ((s.setInputs more).setSess .stepping)) fun t =>
        .next (((t.emit (.snapshot ⟨t.pc, t.flags, t.x⟩)).setSess .idle).setResult .nothing))

/-- R62: a fetch at pc ≥ L reports OutOfBoundsFetch with that pc and changes nothing. -/
def Obligations.OutOfBoundsFetchChangesNothing : Prop :=
  ∀ (h : Handlers) (s : State), noPoll s → s.cfg.storeLen ≤ s.pc.toNat →
    engineStep h s = .next (s, .outOfBoundsFetch s.pc)

/-- R52, R64: an opcode without a handler reports UnknownOpcode with the byte and the prior pc, skips exactly one byte and
changes nothing else; in the base table that is every byte but 0x90. -/
def Obligations.UnknownOpcodeSkipsOneByte : Prop :=
  (∀ (h : Handlers) (s : State), s.cfg.wf → noPoll s → s.pc.toNat < s.cfg.storeLen →
    decodeTable s.cfg (memRead s s.pc.toNat) = none →
    ∃ t, engineStep h s = .next (t, .unknownOpcode (memRead s s.pc.toNat) s.pc) ∧
      t.pc.toNat = s.pc.toNat + 1 ∧ t = s.setPc t.pc) ∧
  (∀ c : Config, c.extTable = [] → ∀ (op : Byte), decodeTable c op = none ↔ op ≠ 0x90)

/-- R66: an extension entry whose bytes lie in the store reads its operand bytes in ascending order, applies its handler to
the registers as they stood, and advances pc by its length; one whose bytes pass L is an out-of-bounds fetch that changes
nothing. -/
def Obligations.ExtensionEntryRunsItsHandler : Prop :=
  ∀ (h : Handlers) (s : State) (len : Nat), s.cfg.wf → noPoll s → s.pc.toNat < s.cfg.storeLen →
    extLength s.cfg.extTable (memRead s s.pc.toNat) = some len →
    (s.pc.toNat + len ≤ s.cfg.storeLen →
      ∃ t, engineStep h s = .next (t, .ok) ∧ t.pc.toNat = s.pc.toNat + len ∧
        (t.x, t.flags) = h (memRead s s.pc.toNat) s.x s.flags
          ((List.range (len - 1)).map fun k => memRead s (s.pc.toNat + 1 + k)) ∧
        t = (s.setRegs t.x t.flags).setPc t.pc) ∧
    (s.cfg.storeLen < s.pc.toNat + len → engineStep h s = .next (s, .outOfBoundsFetch s.pc))

/-- R109: one step reports one result, and the first phase that applies decides it: the polled interrupt, the bounds of pc,
the missing handler, the entry past L, else Ok. -/
def Obligations.FirstApplicablePhaseDecidesTheResult : Prop :=
  ∀ (h : Handlers) (s : State), engineSound s → ∃ t r, engineStep h s = .next (t, r) ∧
    (¬ noPoll s → r = .delivered (slotAt s.queue s.queue.head)) ∧
    (noPoll s → s.cfg.storeLen ≤ s.pc.toNat → r = .outOfBoundsFetch s.pc) ∧
    (noPoll s → s.pc.toNat < s.cfg.storeLen →
      (decodeTable s.cfg (memRead s s.pc.toNat) = none → r = .unknownOpcode (memRead s s.pc.toNat) s.pc) ∧
      (∀ (e : TableEntry), decodeTable s.cfg (memRead s s.pc.toNat) = some e →
        (s.cfg.storeLen < s.pc.toNat + entryLen e → r = .outOfBoundsFetch s.pc) ∧
        (s.pc.toNat + entryLen e ≤ s.cfg.storeLen → r = .ok)))

/-- R68: no engine step writes the store, changes its length, emits an event or changes the session state, and without the
poll it neither reads nor writes the queue: with any other queue it does the same. -/
def Obligations.EngineStepFrame : Prop :=
  ∀ (h : Handlers) (s t : State) (r : StepResult), engineStep h s = .next (t, r) →
    sameStore s t ∧ t.cfg = s.cfg ∧ t.output = s.output ∧ t.sess = s.sess ∧
    t.queue.slots = s.queue.slots ∧ t.queue.tail = s.queue.tail ∧
    (s.cfg.interruptPoll = false → t.queue = s.queue ∧
      ∀ (q : Queue), engineStep h (s.setQueue q) = .next (t.setQueue q, r))

/-- An engine step that takes no interrupt either is out of bounds and changes nothing, or moves pc forward, not past L.
R65 has every such step from pc < L raise pc, while R66 leaves pc on an entry that passes L; the model follows R66 (DEDUCED,
log entry 13). -/
def Obligations.EngineStepMovesPcForward : Prop :=
  ∀ (h : Handlers) (s t : State) (r : StepResult), engineSound s → noPoll s → engineStep h s = .next (t, r) →
    (t = s ∧ r = .outOfBoundsFetch s.pc) ∨
      (s.pc.toNat < t.pc.toNat ∧ t.pc.toNat ≤ s.cfg.storeLen ∧ ∀ (p : Addr), r ≠ .outOfBoundsFetch p)

/-- In the base table without the poll, n engine steps bring pc n further, to L at most, and change nothing else: stepping
from pc < L is at L after L - pc steps, and stays there (40_engine_step.md R65). -/
def Obligations.BaseEngineReachesTheEnd : Prop :=
  ∀ (h : Handlers) (s : State) (n : Nat), engineSound s → baseTable s → s.cfg.interruptPoll = false →
    ∃ t, engineRun h n s = .next t ∧ t = s.setPc t.pc ∧
      t.pc.toNat = if s.cfg.storeLen ≤ s.pc.toNat then s.pc.toNat else min (s.pc.toNat + n) s.cfg.storeLen

/-- R67: only an extension entry's handler writes the general registers or the flags; in the base hardware they are 0 at
reset and every step of the machine keeps them 0. -/
def Obligations.BaseRegistersStayZero : Prop :=
  (∀ (h : Handlers) (s t : State) (r : StepResult), engineStep h s = .next (t, r) →
    extLength s.cfg.extTable (memRead s s.pc.toNat) = none →
    t.x = s.x ∧ t.flags = s.flags) ∧
  (baseTable State.reset ∧ registersZero State.reset) ∧
  (∀ (s t : State), baseTable s → registersZero s → step s = .next t → baseTable t ∧ registersZero t)

/-! ## Interrupts -/

/-- R61, first part: with the poll set and the queue not empty, the step dequeues the entry at head, delivers it and
fetches nothing. -/
def Obligations.PolledInterruptIsDelivered : Prop :=
  ∀ (h : Handlers) (s : State), s.cfg.interruptPoll = true → s.queue.head ≠ s.queue.tail →
    engineStep h s = .next ({ s with
      pc := s.cfg.dispatchTarget
      pend := false
      queue := { s.queue with head := (s.queue.head + 1) % s.cfg.queueCap } },
      .delivered (slotAt s.queue s.queue.head))

/-- R110: a delivery, by port P5 and by the poll, writes pc with the dispatch target and clears `pend`, and nothing else; it
always succeeds, a second one leaves the same state, and with the target past the store the next step is out of bounds. -/
def Obligations.DeliveryWritesPcAndPend : Prop :=
  (∀ (irq : Interrupt) (s : State), deliver irq s = { s with pc := s.cfg.dispatchTarget, pend := false }) ∧
  (∀ (irq irq' : Interrupt) (s : State), deliver irq' (deliver irq s) = deliver irq s) ∧
  (∀ (h : Handlers) (raw : RawInterrupt) (s : State), s.sess = .idle → raw.kind ≠ 3 →
    ∃ irq, recordOf raw = some irq ∧ transact h (.deliver raw) s = .next (deliver irq s, .ok)) ∧
  (∀ (h : Handlers) (s : State), ¬ noPoll s → ∃ irq, engineStep h s = .next (deliver irq
      { s with queue := { s.queue with head := (s.queue.head + 1) % s.cfg.queueCap } }, .delivered irq)) ∧
  (∀ (h : Handlers) (irq : Interrupt) (s : State), noPoll s → s.cfg.storeLen ≤ s.cfg.dispatchTarget.toNat →
    engineStep h (deliver irq s) = .next (deliver irq s, .outOfBoundsFetch s.cfg.dispatchTarget))

/-- Every interrupt goes to one place and nothing of where it came from stays (60_exceptions.md R111, R113): neither the
record nor the old pc shows in the state after a delivery. -/
def Obligations.DeliveryKeepsNoReturnContext : Prop :=
  ∀ (irq irq' : Interrupt) (s : State) (v : Addr), deliver irq (s.setPc v) = deliver irq' s

/-- With the poll set, n engine steps on a queue of at least n entries deliver its n oldest ones, one a step, execute
nothing, and leave pc at the dispatch target (60_exceptions.md R116). -/
def Obligations.PollingRunDeliversTheOldestFirst : Prop :=
  ∀ (h : Handlers) (s : State) (n : Nat), engineSound s → s.cfg.interruptPoll = true →
    n ≤ queueCount s.cfg.queueCap s.queue →
    (∃ t, engineRun h n s = .next t ∧ sameRegisters s t ∧ sameStore s t ∧
      queueEntries s.cfg.queueCap t.queue = (queueEntries s.cfg.queueCap s.queue).drop n ∧
      (0 < n → t.pc = s.cfg.dispatchTarget)) ∧
    (∀ k < n, resultAt h k s = ((queueEntries s.cfg.queueCap s.queue)[k]?).map .delivered)

/-- R21: the ports refuse an interrupt of kind 3, and carry every other record in unchanged. -/
def Obligations.KindThreeIsRefused : Prop :=
  (∀ (h : Handlers) (s : State) (raw : RawInterrupt), s.sess = .idle → raw.kind = 3 →
    transact h (.enqueue raw) s = .refused .noSuchKind ∧ transact h (.deliver raw) s = .refused .noSuchKind) ∧
  (∀ raw : RawInterrupt, raw.kind ≠ 3 → ∃ irq, recordOf raw = some irq ∧
    Kind.code irq.kind = raw.kind ∧ irq.number = raw.number ∧ irq.priority = raw.priority)

/-! ## The queue -/

/-- R75, R76: Enqueue on a full queue returns QueueFull and writes nothing; else it writes the slot at tail and tail, and
nothing else. With one slot the queue is always full. -/
def Obligations.EnqueueAppendsAtTail : Prop :=
  ∀ (h : Handlers) (s : State) (raw : RawInterrupt) (irq : Interrupt), s.sess = .idle → recordOf raw = some irq →
    queueSound s.cfg.queueCap s.queue →
    ((s.queue.tail + s.cfg.queueCap - s.queue.head) % s.cfg.queueCap = s.cfg.queueCap - 1 →
      transact h (.enqueue raw) s = .next (s, .queueFull)) ∧
    ((s.queue.tail + s.cfg.queueCap - s.queue.head) % s.cfg.queueCap ≠ s.cfg.queueCap - 1 →
      transact h (.enqueue raw) s = .next ({ s with queue :=
        { slots := s.queue.slots.set s.queue.tail irq, head := s.queue.head,
          tail := (s.queue.tail + 1) % s.cfg.queueCap } }, .ok)) ∧
    (s.cfg.queueCap = 1 → transact h (.enqueue raw) s = .next (s, .queueFull))

/-- R77, R78: Dequeue on an empty queue returns QueueEmpty and writes nothing; else it returns the record at head and
writes head, and nothing else: pc stays. With one slot the queue is always empty. -/
def Obligations.DequeueTakesTheHead : Prop :=
  ∀ (h : Handlers) (s : State), s.sess = .idle → queueSound s.cfg.queueCap s.queue →
    (s.queue.head = s.queue.tail → transact h .dequeue s = .next (s, .queueEmpty)) ∧
    (s.queue.head ≠ s.queue.tail → ∃ irq, s.queue.slots[s.queue.head]? = some irq ∧
      transact h .dequeue s = .next ({ s with queue :=
        { s.queue with head := (s.queue.head + 1) % s.cfg.queueCap } }, .okRecord irq)) ∧
    (s.cfg.queueCap = 1 → transact h .dequeue s = .next (s, .queueEmpty))

/-- The ring of slots is a list of at most C - 1 entries (10_state.md R24, 41_interrupt_queue.md R83): Enqueue appends to
it, Dequeue takes its first, full is C - 1 entries and empty is none. -/
def Obligations.QueueIsABoundedList : Prop :=
  ∀ (cap : Nat) (q : Queue), queueSound cap q →
    (queueEntries cap q).length = queueCount cap q ∧ queueCount cap q ≤ cap - 1 ∧
    (∀ (irq : Interrupt), enqueue cap irq q = none ↔ (queueEntries cap q).length = cap - 1) ∧
    (∀ (irq : Interrupt) (q' : Queue), enqueue cap irq q = some q' →
      queueEntries cap q' = queueEntries cap q ++ [irq]) ∧
    (dequeue cap q = none ↔ queueEntries cap q = []) ∧
    (∀ (irq : Interrupt) (q' : Queue), dequeue cap q = some (irq, q') →
      queueEntries cap q = irq :: queueEntries cap q')

/-- R80: over any sequence of queue operations, what the Dequeues return is a first part of what the Enqueues put in, in
the same order, nothing twice and nothing left out; from a queue with entries, those come first. -/
def Obligations.FifoLaw : Prop :=
  ∀ (cap : Nat) (ops : List QueueOp) (q : Queue), queueSound cap q →
    queueEntries cap q ++ (runQueue cap ops q).2.1 =
      (runQueue cap ops q).2.2 ++ queueEntries cap (runQueue cap ops q).1 ∧
    (q.head = q.tail → (runQueue cap ops q).2.2 <+: (runQueue cap ops q).2.1)

/-- R82: with n entries stored exactly C - 1 - n further Enqueues succeed; from a full queue, one Dequeue lets exactly one
more succeed. -/
def Obligations.CapacityLaw : Prop :=
  ∀ (cap : Nat) (q : Queue), queueSound cap q →
    (∀ (irqs : List Interrupt), (∃ q', enqueueAll cap irqs q = some q') ↔ irqs.length ≤ cap - 1 - queueCount cap q) ∧
    (∀ (irq : Interrupt) (q' : Queue), queueCount cap q = cap - 1 → dequeue cap q = some (irq, q') →
      ∀ (a : Interrupt), ∃ q'', enqueue cap a q' = some q'' ∧ ∀ (b : Interrupt), enqueue cap b q'' = none)

/-- C pairs of an Enqueue and a Dequeue from an empty queue bring both indices back to where they were
(41_interrupt_queue.md R83). -/
def Obligations.IndicesComeRoundTheRing : Prop :=
  ∀ (cap : Nat) (q : Queue) (irqs : List Interrupt), queueSound cap q → q.head = q.tail → irqs.length = cap →
    (runQueue cap (irqs.flatMap fun irq => [.put irq, .take]) q).1.head = q.head ∧
    (runQueue cap (irqs.flatMap fun irq => [.put irq, .take]) q).1.tail = q.tail

/-- R79: the selector takes the entry at head and reads no field of any record: with other records in the slots, priority
and all, Dequeue picks the same slot and Enqueue accepts the same. -/
def Obligations.SelectorReadsNoRecord : Prop :=
  ∀ (cap : Nat) (q : Queue) (f : Interrupt → Interrupt), queueSound cap q →
    dequeue cap (mapRecords f q) = (dequeue cap q).map (fun p => (f p.1, mapRecords f p.2)) ∧
    (∀ (irq : Interrupt), enqueue cap (f irq) (mapRecords f q) = (enqueue cap irq q).map (mapRecords f)) ∧
    (∀ (irq : Interrupt) (q' : Queue), dequeue cap q = some (irq, q') → q.slots[q.head]? = some irq)

/-! ## The store -/

/-- R42: P6 writes one byte of the store and nothing else, is refused outside the store, and no other transaction of the
core writes a store byte. -/
def Obligations.OnlyTheHostWritesTheStore : Prop :=
  (∀ (h : Handlers) (s : State) (a : Nat) (b : Byte), coreSound s → s.sess = .idle →
    (a < s.cfg.storeLen → ∃ t, transact h (.storeWrite a b) s = .next (t, .ok) ∧ memRead t a = b ∧
      (∀ (k : Nat), k ≠ a → memRead t k = memRead s k) ∧ t = s.setMem t.mem) ∧
    (s.cfg.storeLen ≤ a → transact h (.storeWrite a b) s = .refused .addressOutsideStore)) ∧
  (∀ (h : Handlers) (a : Nat) (b : Byte) (s : State), s.sess ≠ .idle →
    transact h (.storeWrite a b) s = .refused .sessionNotIdle) ∧
  (∀ (h : Handlers) (i : Input) (s t : State) (r : PortResult), (∀ (a : Nat) (b : Byte), i ≠ .storeWrite a b) →
    transact h i s = .next (t, r) → sameStore s t)

/-- The byte a host wrote, at any address of the store, is the byte that every later read and the next fetch see there
(20_memory.md R46, R41): at pc, NOP runs, an unregistered byte is reported, and an extension entry runs; in the operand bytes
of the entry at pc, the handler receives it. -/
def Obligations.StoreWriteReachesTheNextFetch : Prop :=
  ∀ (h : Handlers) (s : State) (a : Nat) (b : Byte), coreSound s → s.sess = .idle → noPoll s →
    s.pc.toNat < s.cfg.storeLen → a < s.cfg.storeLen →
    ∃ t, transact h (.storeWrite a b) s = .next (t, .ok) ∧
      (∀ (k : Nat), memRead t k = if k = a then b else memRead s k) ∧
      (a = s.pc.toNat → b = 0x90 →
        ∃ u, engineStep h t = .next (u, .ok) ∧ u.pc.toNat = s.pc.toNat + 1 ∧ u = t.setPc u.pc) ∧
      (a = s.pc.toNat → decodeTable s.cfg b = none →
        ∃ u, engineStep h t = .next (u, .unknownOpcode b s.pc) ∧ u.pc.toNat = s.pc.toNat + 1 ∧ u = t.setPc u.pc) ∧
      (∀ (len : Nat), extLength s.cfg.extTable (memRead t s.pc.toNat) = some len →
        s.pc.toNat + len ≤ s.cfg.storeLen →
        ∃ u, engineStep h t = .next (u, .ok) ∧ u.pc.toNat = s.pc.toNat + len ∧
          (u.x, u.flags) = h (memRead t s.pc.toNat) s.x s.flags
            ((List.range (len - 1)).map fun k => memRead t (s.pc.toNat + 1 + k)))

/-! ## The session -/

/-- R87: a line selects the token that it begins with once its terminator is gone, case counting unless `CASE_FOLD` is set,
and is invalid otherwise. The tokens are written in ASCII: go, next, stop, state. -/
def Obligations.LineSelectsTheTokenItBeginsWith : Prop :=
  (∀ (fold : Bool) (text : List Byte),
    let t := if fold then (stripTerminator text).map lowerByte else stripTerminator text
    (parseLine fold text = .run ↔ [0x67, 0x6F] <+: t) ∧
    (parseLine fold text = .step ↔ [0x6E, 0x65, 0x78, 0x74] <+: t) ∧
    (parseLine fold text = .halt ↔ [0x73, 0x74, 0x6F, 0x70] <+: t) ∧
    (parseLine fold text = .inspect ↔ [0x73, 0x74, 0x61, 0x74, 0x65] <+: t) ∧
    (parseLine fold text = .invalid ↔ ¬ [0x67, 0x6F] <+: t ∧ ¬ [0x6E, 0x65, 0x78, 0x74] <+: t ∧
      ¬ [0x73, 0x74, 0x6F, 0x70] <+: t ∧ ¬ [0x73, 0x74, 0x61, 0x74, 0x65] <+: t)) ∧
  (∀ b : Byte, (lowerByte b).toNat = if 0x41 ≤ b.toNat ∧ b.toNat ≤ 0x5A then b.toNat + 0x20 else b.toNat)

/-- R88: the terminator is a line feed with the carriage return before it, if there is one, and nothing else is removed; the
operator's bytes split into lines that lose nothing, each with its line feed at its end only, a final unterminated one too.
What is removed from a text with a line feed inside it, which is no line of R88, is the model's choice (log entry 12). -/
def Obligations.LinesEndAtLineFeeds : Prop :=
  (∀ (t : List Byte), stripTerminator (t ++ [0x0D, 0x0A]) = t) ∧
  (∀ (t : List Byte), t.getLast? ≠ some 0x0D → stripTerminator (t ++ [0x0A]) = t) ∧
  (∀ (t : List Byte), t.getLast? ≠ some 0x0A → stripTerminator t = t) ∧
  (∀ (text : List Byte), (splitLines [] text).flatten = text ∧
    (∀ l ∈ splitLines [] text, l ≠ [] ∧ (0x0A : Byte) ∉ l.dropLast) ∧
    (∀ l ∈ (splitLines [] text).dropLast, l.getLast? = some 0x0A) ∧
    operatorInputs text = (splitLines [] text).map .line ++ [.endOfInput])

/-- R90: only the two engine faults become diagnostics. -/
def Obligations.EngineFaultsBecomeDiagnostics : Prop :=
  ∀ (s : State) (irq : Interrupt) (p : Addr) (op : Byte) (a : Addr),
    emitResult .ok s = s ∧ emitResult (.delivered irq) s = s ∧
    emitResult (.outOfBoundsFetch p) s =
      { s with output := s.output ++ [.diagnostic (.outOfBoundsFetch p)] } ∧
    emitResult (.unknownOpcode op a) s =
      { s with output := s.output ++ [.diagnostic (.unknownOpcode op a)] } ∧
    Diagnostic.code (.outOfBoundsFetch p) = 1 ∧ Diagnostic.code (.unknownOpcode op a) = 2

/-- R89: the line `next` performs exactly one engine step and emits that step's diagnostic, if any, and one snapshot of the
state after it; the session is Idle again, whatever the result. -/
def Obligations.StepCommandRunsOneStep : Prop :=
  ∀ (h : Handlers) (s : State) (text : List Byte), coreSound s → s.sess = .idle →
    parseLine s.cfg.caseFold text = .step →
    ∃ t r, engineStep h (s.setSess .stepping) = .next (t, r) ∧
      transact h (.line text) s = .next ({ t with
        output := (emitResult r t).output ++ [.snapshot ⟨t.pc, t.flags, t.x⟩]
        sess := .idle }, .nothing)

/-- R91: the line `go` performs a burst and then emits one snapshot of the state after it; the burst takes one step after
another, emits each result, and ends after B steps or after the first OutOfBoundsFetch. -/
def Obligations.RunCommandRunsABurst : Prop :=
  (∀ (h : Handlers) (s : State) (text : List Byte), coreSound s → s.sess = .idle →
    parseLine s.cfg.caseFold text = .run →
    ∃ t, runBurst h s.cfg.burst (s.setSess .running) = .next t ∧
      transact h (.line text) s = .next ({ t with
        output := t.output ++ [.snapshot ⟨t.pc, t.flags, t.x⟩]
        sess := .idle }, .nothing)) ∧
  (∀ (h : Handlers) (s : State), runBurst h 0 s = .next s) ∧
  (∀ (h : Handlers) (n : Nat) (s t : State) (p : Addr), engineStep h s = .next (t, .outOfBoundsFetch p) →
    runBurst h (n + 1) s = .next (emitResult (.outOfBoundsFetch p) t)) ∧
  (∀ (h : Handlers) (n : Nat) (s t : State) (r : StepResult), engineStep h s = .next (t, r) →
    (∀ (p : Addr), r ≠ .outOfBoundsFetch p) →
    runBurst h (n + 1) s = runBurst h n (emitResult r t))

/-- R93, the burst law: if exactly N steps are possible before the first OutOfBoundsFetch, a burst of at most B steps calls
the engine min(B, N + 1) times; if none of the first B is out of bounds it calls it B times. In the base hardware N is
L - pc, or 0 past the end. -/
def Obligations.BurstLaw : Prop :=
  (∀ (h : Handlers) (s : State) (b n : Nat), (∀ k < n, ∃ r, resultAt h k s = some r ∧
    ∀ (p : Addr), r ≠ .outOfBoundsFetch p) →
    (∃ p, resultAt h n s = some (.outOfBoundsFetch p)) → runBurst h b s = emittingRun h (min b (n + 1)) s) ∧
  (∀ (h : Handlers) (s : State) (b : Nat), (∀ k < b, ∃ r, resultAt h k s = some r ∧
    ∀ (p : Addr), r ≠ .outOfBoundsFetch p) →
    runBurst h b s = emittingRun h b s) ∧
  (∀ (h : Handlers) (s : State), engineSound s → baseTable s → s.cfg.interruptPoll = false →
    (∀ k < s.cfg.storeLen - s.pc.toNat, ∃ r, resultAt h k s = some r ∧ ∀ (p : Addr), r ≠ .outOfBoundsFetch p) ∧
    (∃ p, resultAt h (s.cfg.storeLen - s.pc.toNat) s = some (.outOfBoundsFetch p)))

/-- In the base hardware one `go` brings pc B bytes further, or to the end of the store, and leaves the registers and the
store alone (42_debugger_session.md R91, R93). -/
def Obligations.BaseRunAdvancesByTheBurstOrToTheEnd : Prop :=
  ∀ (h : Handlers) (s : State) (text : List Byte), coreSound s → s.sess = .idle → baseTable s →
    s.cfg.interruptPoll = false →
    parseLine s.cfg.caseFold text = .run →
    ∃ t, transact h (.line text) s = .next (t, .nothing) ∧ sameRegisters s t ∧ sameStore s t ∧ t.queue = s.queue ∧
      t.pc.toNat = if s.cfg.storeLen ≤ s.pc.toNat then s.pc.toNat
        else min (s.pc.toNat + s.cfg.burst) s.cfg.storeLen

/-- R95: the line `state` emits one snapshot and changes nothing else; the session stays Idle. -/
def Obligations.InspectEmitsOneSnapshot : Prop :=
  ∀ (h : Handlers) (s : State) (text : List Byte), s.sess = .idle → parseLine s.cfg.caseFold text = .inspect →
    transact h (.line text) s =
      .next ({ s with output := s.output ++ [.snapshot ⟨s.pc, s.flags, s.x⟩] }, .nothing)

/-- R96, R99, R100: the line `stop` and the end of input halt the session, emit nothing and change nothing else. -/
def Obligations.HaltAndEndOfInputAgree : Prop :=
  ∀ (h : Handlers) (s : State) (text : List Byte), s.sess = .idle → parseLine s.cfg.caseFold text = .halt →
    transact h (.line text) s = .next ({ s with sess := .halted }, .nothing) ∧
    transact h .endOfInput s = .next ({ s with sess := .halted }, .nothing)

/-- R98: any other line emits one diagnostic that carries it without its terminator, and changes nothing else. -/
def Obligations.InvalidCommandEmitsOneDiagnostic : Prop :=
  ∀ (h : Handlers) (s : State) (text : List Byte), s.sess = .idle → parseLine s.cfg.caseFold text = .invalid →
    transact h (.line text) s = .next ({ s with
      output := s.output ++ [.diagnostic (.invalidCommand (stripTerminator text))] }, .nothing) ∧
    Diagnostic.code (.invalidCommand (stripTerminator text)) = 5

/-- Halted is terminal (42_debugger_session.md R97): no port accepts an input, and the machine's step leaves the core and the
output as they are. That the step answers a next state at all, with the refused input withdrawn and the refusal given to its
caller, is the model's choice (log entry 6). -/
def Obligations.HaltedIsTerminal : Prop :=
  (∀ (h : Handlers) (i : Input) (s : State), s.sess = .halted → ∃ why, transact h i s = .refused why) ∧
  (∀ (s : State), s.sess = .halted → ∃ r, step s = .next ((s.setInputs s.inputs.tail).setResult r))

/-- R103: only a line read as Halt, or the end of input, ends the session. -/
def Obligations.SessionEndsOnlyByHaltOrEndOfInput : Prop :=
  ∀ (s t : State), step s = .next t → s.sess ≠ .halted → t.sess = .halted →
    ∃ i rest, s.inputs = i :: rest ∧
      (i = .endOfInput ∨ ∃ text, i = .line text ∧ parseLine s.cfg.caseFold text = .halt)

/-- R101, R102: how many events each command emits; the snapshot of Step, Run and Inspect is the last one and shows the
state as the command leaves it. -/
def Obligations.CommandsEmitTheStatedEvents : Prop :=
  (∀ (h : Handlers) (s : State) (text : List Byte) (t : State) (r : PortResult),
    transact h (.line text) s = .next (t, r) →
    ∃ ds : List Diagnostic,
      (parseLine s.cfg.caseFold text = .step → ds.length ≤ 1 ∧
        t.output = s.output ++ ds.map .diagnostic ++ [.snapshot ⟨t.pc, t.flags, t.x⟩]) ∧
      (parseLine s.cfg.caseFold text = .run → ds.length ≤ s.cfg.burst ∧
        t.output = s.output ++ ds.map .diagnostic ++ [.snapshot ⟨t.pc, t.flags, t.x⟩]) ∧
      (parseLine s.cfg.caseFold text = .inspect →
        t.output = s.output ++ [.snapshot ⟨t.pc, t.flags, t.x⟩]) ∧
      (parseLine s.cfg.caseFold text = .halt → t.output = s.output) ∧
      (parseLine s.cfg.caseFold text = .invalid →
        ds.length = 1 ∧ t.output = s.output ++ ds.map .diagnostic)) ∧
  (∀ (h : Handlers) (s t : State) (r : PortResult), transact h .endOfInput s = .next (t, r) → t.output = s.output)

/-- The session itself never touches the queue: without the poll, no line changes it (41_interrupt_queue.md R74). -/
def Obligations.LinesNeverTouchTheQueue : Prop :=
  ∀ (h : Handlers) (s : State) (text : List Byte) (t : State) (r : PortResult), s.cfg.interruptPoll = false →
    transact h (.line text) s = .next (t, r) → t.queue = s.queue

/-- An instruction word placed by `withFetchWord` is the next thing the machine runs, from any state whose pc leaves room
for it; the placing is the model's own (log entry 9). -/
def Obligations.PlacedNopRunsNext : Prop :=
  ∀ (s : State), Memory.wf s.mem → s.pc.toNat + 1 < addrSpace →
    ∃ t, step (s.withFetchWord 8 0x90) = .next t ∧ t.pc.toNat = s.pc.toNat + 1 ∧ sameRegisters s t ∧
      t.output = s.output ++ [.snapshot ⟨t.pc, s.flags, s.x⟩]

/-! ## One step, one transaction; the extension table -/

/-- The machine's step performs the transaction of the next input, whole (00_scope.md R5, 10_state.md R33): it answers the
state that the transaction leaves, and its caller gets the transaction's result. A sound core performs every input that it
accepts, and takes no other with it. The list of inputs and the field of the result are the model's (log entries 6 and 7). -/
def Obligations.StepPerformsTheOfferedTransaction : Prop :=
  (∀ (s t : State) (i : Input) (rest : List Input) (r : PortResult), s.inputs = i :: rest →
    transact Config.extHandlers i (s.setInputs rest) = .next (t, r) → step s = .next (t.setResult r)) ∧
  (∀ (s : State) (i : Input) (rest : List Input), coreSound s → s.inputs = i :: rest → accepts s i →
    ∃ t r, transact Config.extHandlers i (s.setInputs rest) = .next (t, r) ∧ step s = .next (t.setResult r) ∧
      t.inputs = rest)

/-- The extension table's lookup is the length of the first entry of the opcode in the table's list, and none exactly where
no entry is the opcode's. The spec has one entry of an opcode at most; which of several counts is the model's choice (log
entry 2). -/
def Obligations.ExtensionLookupTakesTheFirstEntry : Prop :=
  ∀ (table : List ExtEntry) (op : Byte),
    (extLength table op = none ↔ ∀ e ∈ table, e.opcode ≠ op) ∧
    (∀ (len : Nat), extLength table op = some len ↔ ∃ before e after, table = before ++ e :: after ∧
      (∀ e' ∈ before, e'.opcode ≠ op) ∧ e.opcode = op ∧ e.len = len)
end

