-- ==== Sys2Proof/Laws/Decode.lean ====
section
/-! SUPPORT. What the decoder and the decode table answer for each opcode, and the lengths of the table's entries. -/

namespace Sys2Proof

@[simp] theorem decode_nil : decode [] = .error .noOpcodeByte := rfl

@[simp] theorem decode_nop (rest : List Byte) : decode (nopOpcode :: rest) = .ok (.nop, rest) := rfl

/-- Every byte but NOP's is rejected by name. -/
theorem decode_of_ne {op : Byte} (h : op ≠ nopOpcode) (rest : List Byte) :
    decode (op :: rest) = .error (.unregistered op) := if_neg h

/-- Bytes that decode to an instruction begin with its opcode. -/
theorem decode_eq_ok {bytes rest : List Byte} {i : Instr} (h : decode bytes = .ok (i, rest)) :
    i = .nop ∧ bytes = nopOpcode :: rest := by
  cases bytes with
  | nil => cases h
  | cons op more =>
    by_cases ho : op = nopOpcode
    · subst ho; cases h; exact ⟨rfl, rfl⟩
    · rw [decode_of_ne ho] at h; cases h

@[simp] theorem decodeTable_nop (c : Config) : decodeTable c nopOpcode = some (.instr .nop) := rfl

/-- An opcode other than NOP's has the entry of the extension table, if there is one. -/
theorem decodeTable_of_ne (c : Config) {op : Byte} (h : op ≠ nopOpcode) :
    decodeTable c op = (extLength c.extTable op).map .extension := by
  unfold decodeTable
  rw [decode_of_ne h]

/-- Entries of a well-formed configuration's decode table have a length in [1, MAX_LEN]. -/
theorem entryLen_of_decodeTable {c : Config} (hc : c.wf) {op : Byte} {e : TableEntry}
    (h : decodeTable c op = some e) : 1 ≤ entryLen e ∧ entryLen e ≤ c.maxLen := by
  unfold decodeTable at h
  split at h
  · next i _ _ => cases h; cases i; exact ⟨Nat.le_refl 1, hc.2.2.1⟩
  · have key : ∀ (l : List ExtEntry), (∀ x ∈ l, 1 ≤ x.len ∧ x.len ≤ c.maxLen) → ∀ n, extLength l op = some n →
        1 ≤ n ∧ n ≤ c.maxLen := by
      intro l
      induction l with
      | nil => intro _ n hn; cases hn
      | cons x rest ih =>
        intro hl n hn
        simp only [extLength] at hn
        split at hn
        · cases hn; exact hl x (by simp)
        · exact ih (fun y hy => hl y (by simp [hy])) n hn
    obtain ⟨n, hn, rfl⟩ := Option.map_eq_some_iff.1 h
    exact key _ hc.2.2.2.2.2 n hn

end Sys2Proof
end

