-- ==== Sys2Proof/Laws/InterruptQueue.lean ====
section
/-! SUPPORT. Everything the two queue operations can answer, that they keep the queue's sizes, and what they do to the
count. -/

namespace Sys2Proof.Machine

/-- An enqueue that answers a queue was not full, and it wrote the slot at tail and tail. -/
theorem enqueue_eq_some {cap : Nat} {irq : Interrupt} {q q' : Queue} :
    enqueue cap irq q = some q' ↔ queueCount cap q ≠ cap - 1 ∧
      q' = { q with slots := q.slots.set q.tail irq, tail := (q.tail + 1) % cap } := by
  unfold enqueue
  split <;> simp_all [eq_comm]

/-- A dequeue that answers was not on an empty queue, and it wrote head. -/
theorem dequeue_eq_some {cap : Nat} {irq : Interrupt} {q q' : Queue} :
    dequeue cap q = some (irq, q') ↔ q.head ≠ q.tail ∧ irq = slotAt q q.head ∧
      q' = { q with head := (q.head + 1) % cap } := by
  unfold dequeue
  split <;> simp_all [eq_comm]

theorem enqueue_sound {cap : Nat} {irq : Interrupt} {q q' : Queue} (h : queueSound cap q)
    (e : enqueue cap irq q = some q') : queueSound cap q' := by
  obtain ⟨-, rfl⟩ := enqueue_eq_some.1 e
  exact ⟨by simpa using h.1, h.2.1, Nat.mod_lt _ (by omega)⟩

theorem dequeue_sound {cap : Nat} {irq : Interrupt} {q q' : Queue} (h : queueSound cap q)
    (e : dequeue cap q = some (irq, q')) : queueSound cap q' := by
  obtain ⟨-, -, rfl⟩ := dequeue_eq_some.1 e
  exact ⟨h.1, Nat.mod_lt _ (by omega), h.2.2⟩

/-- The count without the remainder: tail less head, or round the end of the ring. -/
theorem queueCount_eq {cap : Nat} {q : Queue} (h : queueSound cap q) :
    queueCount cap q = if q.head ≤ q.tail then q.tail - q.head else q.tail + cap - q.head := by
  obtain ⟨-, h1, h2⟩ := h
  unfold queueCount
  split
  · rw [show q.tail + cap - q.head = (q.tail - q.head) + cap by omega, Nat.add_mod_right,
      Nat.mod_eq_of_lt (by omega)]
  · exact Nat.mod_eq_of_lt (by omega)

/-- An index advance without the remainder. -/
theorem succ_mod_eq {cap k : Nat} (h : k < cap) : (k + 1) % cap = if k + 1 = cap then 0 else k + 1 := by
  split
  · next e => rw [e, Nat.mod_self]
  · exact Nat.mod_eq_of_lt (by omega)

/-- A successful enqueue leaves one entry more. -/
theorem enqueue_count {cap : Nat} {irq : Interrupt} {q q' : Queue} (h : queueSound cap q)
    (e : enqueue cap irq q = some q') : queueCount cap q' = queueCount cap q + 1 := by
  have hs := enqueue_sound h e
  obtain ⟨hf, rfl⟩ := enqueue_eq_some.1 e
  rw [queueCount_eq hs]
  rw [queueCount_eq h] at *
  simp only [succ_mod_eq h.2.2]
  obtain ⟨-, h1, h2⟩ := h
  split_ifs at * <;> omega

/-- A successful dequeue leaves one entry less. -/
theorem dequeue_count {cap : Nat} {irq : Interrupt} {q q' : Queue} (h : queueSound cap q)
    (e : dequeue cap q = some (irq, q')) : queueCount cap q = queueCount cap q' + 1 := by
  have hs := dequeue_sound h e
  obtain ⟨hf, -, rfl⟩ := dequeue_eq_some.1 e
  rw [queueCount_eq hs]
  rw [queueCount_eq h] at *
  simp only [succ_mod_eq h.2.1]
  obtain ⟨-, h1, h2⟩ := h
  split_ifs at * <;> omega

end Sys2Proof.Machine
end

