-- ==== Sys2Proof/Laws/Memory.lean ====
section
/-! SUPPORT. The store's contents: read after write, the canonical form, and which addresses a write can list. -/

namespace Sys2Proof.Machine

namespace Memory

@[simp] theorem read_nil (a : Nat) : Memory.read [] a = Memory.unlisted := rfl

/-- An address below every listed one is unlisted. -/
theorem read_of_lt (m : Memory) (a : Nat) (h : ∀ c ∈ m, a < c.1) : Memory.read m a = Memory.unlisted := by
  induction m with
  | nil => rfl
  | cons c rest ih =>
    obtain ⟨k, v⟩ := c
    have hk : a < k := h (k, v) (by simp)
    have hr := ih fun d hd => h d (by simp [hd])
    simp only [Memory.read]
    rw [if_neg (by omega), hr]

/-- A listed address of the result is the written one or was listed before. -/
theorem mem_write {m : Memory} {a : Nat} {b : Byte} {c : Host.Cell} (h : c ∈ Memory.write m a b) :
    c ∈ m ∨ c = (a, b) ∧ b ≠ Memory.unlisted := by
  induction m with
  | nil =>
    simp only [Memory.write] at h
    split at h <;> simp_all
  | cons d rest ih =>
    obtain ⟨k, v⟩ := d
    simp only [Memory.write] at h
    repeat' split at h
    all_goals simp_all
    all_goals tauto

/-- Every write keeps the canonical form. -/
theorem write_wf {m : Memory} (h : Memory.wf m) (a : Nat) (b : Byte) : Memory.wf (Memory.write m a b) := by
  refine ⟨?_, fun c hc => ?_⟩
  · induction m with
    | nil => simp only [Memory.write]; split <;> simp
    | cons d rest ih =>
      obtain ⟨k, v⟩ := d
      have hp := List.pairwise_cons.1 h.1
      have hr : Memory.wf rest := ⟨hp.2, fun c hc => h.2 c (by simp [hc])⟩
      simp only [Memory.write]
      repeat' split
      · refine List.pairwise_cons.2 ⟨fun c hc => ?_, ih hr⟩
        obtain hc | ⟨rfl, -⟩ := mem_write hc
        · exact hp.1 c hc
        · assumption
      · exact hp.2
      · rename_i _ hk _
        exact List.pairwise_cons.2 ⟨fun c hc => hk ▸ hp.1 c hc, hp.2⟩
      · exact h.1
      · refine List.pairwise_cons.2 ⟨fun c hc => ?_, h.1⟩
        obtain rfl | hc := List.mem_cons.1 hc
        · show a < k; omega
        · have := hp.1 c hc; show a < c.1; simp only at this; omega
  · obtain hc | ⟨rfl, hb⟩ := mem_write hc
    · exact h.2 c hc
    · exact hb

/-- Reading the written address gives the byte written, and every other address reads as before. -/
theorem read_write {m : Memory} (h : Memory.wf m) (a : Nat) (b : Byte) (k : Nat) :
    Memory.read (Memory.write m a b) k = if k = a then b else Memory.read m k := by
  induction m with
  | nil =>
    simp only [Memory.write]
    split <;> simp_all [Memory.read, eq_comm]
  | cons d rest ih =>
    obtain ⟨j, v⟩ := d
    have hp := List.pairwise_cons.1 h.1
    have hr : Memory.wf rest := ⟨hp.2, fun c hc => h.2 c (by simp [hc])⟩
    have hlow : ∀ i, i ≤ j → Memory.read rest i = Memory.unlisted := fun i hi =>
      read_of_lt rest i fun c hc => Nat.lt_of_le_of_lt hi (hp.1 c hc)
    simp only [Memory.write]
    by_cases h1 : j < a
    · rw [if_pos h1]
      simp only [Memory.read, ih hr]
      by_cases hjk : j = k
      · rw [if_pos hjk, if_pos hjk, if_neg (by omega)]
      · simp [hjk]
    · rw [if_neg h1]
      by_cases h2 : j = a
      · subst h2
        rw [if_pos rfl]
        by_cases hb : b = Memory.unlisted
        · rw [if_pos hb]
          by_cases hk : k = j
          · subst hk; rw [if_pos rfl, hlow k (Nat.le_refl k), hb]
          · simp only [Memory.read]; rw [if_neg hk, if_neg (Ne.symm hk)]
        · rw [if_neg hb]
          simp only [Memory.read]
          by_cases hk : k = j
          · subst hk; simp
          · simp [hk, Ne.symm hk]
      · rw [if_neg h2]
        by_cases hb : b = Memory.unlisted
        · rw [if_pos hb]
          by_cases hk : k = a
          · subst hk
            simp only [Memory.read]
            rw [if_pos trivial, if_neg h2, hlow k (by omega), hb]
          · rw [if_neg hk]
        · rw [if_neg hb]
          simp only [Memory.read]
          by_cases hk : k = a
          · subst hk; simp
          · simp [hk, Ne.symm hk]

/-- Writing a sequence of bytes keeps the canonical form. -/
theorem writeBytes_wf {m : Memory} (h : Memory.wf m) (a : Nat) (bs : List Byte) :
    Memory.wf (Memory.writeBytes m a bs) := by
  induction bs generalizing m a with
  | nil => exact h
  | cons b bs ih => exact ih (write_wf h a b) (a + 1)

/-- An image given byte by byte is in the canonical form. -/
theorem ofBytes_wf (bs : List Byte) : Memory.wf (Memory.ofBytes bs) :=
  writeBytes_wf (by simp [Memory.wf]) 0 bs

end Memory

/-- A host write keeps the store's canonical form, and the reset state has it. -/
theorem memWrite_wf {s : State} (h : Memory.wf s.mem) (a : Nat) (b : Byte) : Memory.wf (memWrite s a b).mem :=
  Memory.write_wf h a b

theorem reset_mem_wf : Memory.wf State.reset.mem := by decide

@[simp] theorem memRead_setPc (s : State) (v : Addr) (a : Nat) : memRead (s.setPc v) a = memRead s a := rfl
@[simp] theorem memRead_setSess (s : State) (v : SessionState) (a : Nat) : memRead (s.setSess v) a = memRead s a := rfl
@[simp] theorem memRead_setRegs (s : State) (x : Regs) (f : FlagsWord) (a : Nat) :
    memRead (s.setRegs x f) a = memRead s a := rfl
@[simp] theorem memRead_setQueue (s : State) (q : Queue) (a : Nat) : memRead (s.setQueue q) a = memRead s a := rfl
@[simp] theorem memRead_emit (s : State) (e : Event) (a : Nat) : memRead (s.emit e) a = memRead s a := rfl

/-- A host write of a byte, read back through the model's read of one byte. -/
theorem memRead_memWrite {s : State} (h : Memory.wf s.mem) (a : Nat) (b : Byte) (k : Nat) :
    memRead (memWrite s a b) k = if k = a then b else memRead s k :=
  Memory.read_write h a b k

/-- Reading n bytes reads each address once, in ascending order. -/
theorem memReadBytes_eq (s : State) (a n : Nat) :
    memReadBytes s a n = (List.range n).map fun k => memRead s (a + k) := by
  induction n generalizing a with
  | zero => rfl
  | succ n ih =>
    simp [memReadBytes, ih, List.range_succ_eq_map, Function.comp_def, Nat.add_assoc, Nat.add_comm 1]

end Sys2Proof.Machine
end

