-- ==== Sys2Proof/Laws/State.lean ====
section
/-! SUPPORT. What each update of State does to each field: one lemma per field per update. -/

namespace Sys2Proof.Machine.State

variable (s : State)

@[simp] theorem setPc_cfg (v : Addr) : (s.setPc v).cfg = s.cfg := rfl
@[simp] theorem setPc_x (v : Addr) : (s.setPc v).x = s.x := rfl
@[simp] theorem setPc_pc (v : Addr) : (s.setPc v).pc = v := rfl
@[simp] theorem setPc_flags (v : Addr) : (s.setPc v).flags = s.flags := rfl
@[simp] theorem setPc_pend (v : Addr) : (s.setPc v).pend = s.pend := rfl
@[simp] theorem setPc_queue (v : Addr) : (s.setPc v).queue = s.queue := rfl
@[simp] theorem setPc_mem (v : Addr) : (s.setPc v).mem = s.mem := rfl
@[simp] theorem setPc_sess (v : Addr) : (s.setPc v).sess = s.sess := rfl
@[simp] theorem setPc_output (v : Addr) : (s.setPc v).output = s.output := rfl
@[simp] theorem setPc_inputs (v : Addr) : (s.setPc v).inputs = s.inputs := rfl
@[simp] theorem setPc_lastResult (v : Addr) : (s.setPc v).lastResult = s.lastResult := rfl

@[simp] theorem setRegs_cfg (x : Regs) (f : FlagsWord) : (s.setRegs x f).cfg = s.cfg := rfl
@[simp] theorem setRegs_x (x : Regs) (f : FlagsWord) : (s.setRegs x f).x = x := rfl
@[simp] theorem setRegs_pc (x : Regs) (f : FlagsWord) : (s.setRegs x f).pc = s.pc := rfl
@[simp] theorem setRegs_flags (x : Regs) (f : FlagsWord) : (s.setRegs x f).flags = f := rfl
@[simp] theorem setRegs_pend (x : Regs) (f : FlagsWord) : (s.setRegs x f).pend = s.pend := rfl
@[simp] theorem setRegs_queue (x : Regs) (f : FlagsWord) : (s.setRegs x f).queue = s.queue := rfl
@[simp] theorem setRegs_mem (x : Regs) (f : FlagsWord) : (s.setRegs x f).mem = s.mem := rfl
@[simp] theorem setRegs_sess (x : Regs) (f : FlagsWord) : (s.setRegs x f).sess = s.sess := rfl
@[simp] theorem setRegs_output (x : Regs) (f : FlagsWord) : (s.setRegs x f).output = s.output := rfl
@[simp] theorem setRegs_inputs (x : Regs) (f : FlagsWord) : (s.setRegs x f).inputs = s.inputs := rfl
@[simp] theorem setRegs_lastResult (x : Regs) (f : FlagsWord) : (s.setRegs x f).lastResult = s.lastResult := rfl

@[simp] theorem setPend_cfg (b : Bool) : (s.setPend b).cfg = s.cfg := rfl
@[simp] theorem setPend_x (b : Bool) : (s.setPend b).x = s.x := rfl
@[simp] theorem setPend_pc (b : Bool) : (s.setPend b).pc = s.pc := rfl
@[simp] theorem setPend_flags (b : Bool) : (s.setPend b).flags = s.flags := rfl
@[simp] theorem setPend_pend (b : Bool) : (s.setPend b).pend = b := rfl
@[simp] theorem setPend_queue (b : Bool) : (s.setPend b).queue = s.queue := rfl
@[simp] theorem setPend_mem (b : Bool) : (s.setPend b).mem = s.mem := rfl
@[simp] theorem setPend_sess (b : Bool) : (s.setPend b).sess = s.sess := rfl
@[simp] theorem setPend_output (b : Bool) : (s.setPend b).output = s.output := rfl
@[simp] theorem setPend_inputs (b : Bool) : (s.setPend b).inputs = s.inputs := rfl
@[simp] theorem setPend_lastResult (b : Bool) : (s.setPend b).lastResult = s.lastResult := rfl

@[simp] theorem setQueue_cfg (q : Queue) : (s.setQueue q).cfg = s.cfg := rfl
@[simp] theorem setQueue_x (q : Queue) : (s.setQueue q).x = s.x := rfl
@[simp] theorem setQueue_pc (q : Queue) : (s.setQueue q).pc = s.pc := rfl
@[simp] theorem setQueue_flags (q : Queue) : (s.setQueue q).flags = s.flags := rfl
@[simp] theorem setQueue_pend (q : Queue) : (s.setQueue q).pend = s.pend := rfl
@[simp] theorem setQueue_queue (q : Queue) : (s.setQueue q).queue = q := rfl
@[simp] theorem setQueue_mem (q : Queue) : (s.setQueue q).mem = s.mem := rfl
@[simp] theorem setQueue_sess (q : Queue) : (s.setQueue q).sess = s.sess := rfl
@[simp] theorem setQueue_output (q : Queue) : (s.setQueue q).output = s.output := rfl
@[simp] theorem setQueue_inputs (q : Queue) : (s.setQueue q).inputs = s.inputs := rfl
@[simp] theorem setQueue_lastResult (q : Queue) : (s.setQueue q).lastResult = s.lastResult := rfl

@[simp] theorem setMem_cfg (m : Memory) : (s.setMem m).cfg = s.cfg := rfl
@[simp] theorem setMem_x (m : Memory) : (s.setMem m).x = s.x := rfl
@[simp] theorem setMem_pc (m : Memory) : (s.setMem m).pc = s.pc := rfl
@[simp] theorem setMem_flags (m : Memory) : (s.setMem m).flags = s.flags := rfl
@[simp] theorem setMem_pend (m : Memory) : (s.setMem m).pend = s.pend := rfl
@[simp] theorem setMem_queue (m : Memory) : (s.setMem m).queue = s.queue := rfl
@[simp] theorem setMem_mem (m : Memory) : (s.setMem m).mem = m := rfl
@[simp] theorem setMem_sess (m : Memory) : (s.setMem m).sess = s.sess := rfl
@[simp] theorem setMem_output (m : Memory) : (s.setMem m).output = s.output := rfl
@[simp] theorem setMem_inputs (m : Memory) : (s.setMem m).inputs = s.inputs := rfl
@[simp] theorem setMem_lastResult (m : Memory) : (s.setMem m).lastResult = s.lastResult := rfl

@[simp] theorem setSess_cfg (v : SessionState) : (s.setSess v).cfg = s.cfg := rfl
@[simp] theorem setSess_x (v : SessionState) : (s.setSess v).x = s.x := rfl
@[simp] theorem setSess_pc (v : SessionState) : (s.setSess v).pc = s.pc := rfl
@[simp] theorem setSess_flags (v : SessionState) : (s.setSess v).flags = s.flags := rfl
@[simp] theorem setSess_pend (v : SessionState) : (s.setSess v).pend = s.pend := rfl
@[simp] theorem setSess_queue (v : SessionState) : (s.setSess v).queue = s.queue := rfl
@[simp] theorem setSess_mem (v : SessionState) : (s.setSess v).mem = s.mem := rfl
@[simp] theorem setSess_sess (v : SessionState) : (s.setSess v).sess = v := rfl
@[simp] theorem setSess_output (v : SessionState) : (s.setSess v).output = s.output := rfl
@[simp] theorem setSess_inputs (v : SessionState) : (s.setSess v).inputs = s.inputs := rfl
@[simp] theorem setSess_lastResult (v : SessionState) : (s.setSess v).lastResult = s.lastResult := rfl

@[simp] theorem emit_cfg (e : Event) : (s.emit e).cfg = s.cfg := rfl
@[simp] theorem emit_x (e : Event) : (s.emit e).x = s.x := rfl
@[simp] theorem emit_pc (e : Event) : (s.emit e).pc = s.pc := rfl
@[simp] theorem emit_flags (e : Event) : (s.emit e).flags = s.flags := rfl
@[simp] theorem emit_pend (e : Event) : (s.emit e).pend = s.pend := rfl
@[simp] theorem emit_queue (e : Event) : (s.emit e).queue = s.queue := rfl
@[simp] theorem emit_mem (e : Event) : (s.emit e).mem = s.mem := rfl
@[simp] theorem emit_sess (e : Event) : (s.emit e).sess = s.sess := rfl
@[simp] theorem emit_output (e : Event) : (s.emit e).output = s.output ++ [e] := rfl
@[simp] theorem emit_inputs (e : Event) : (s.emit e).inputs = s.inputs := rfl
@[simp] theorem emit_lastResult (e : Event) : (s.emit e).lastResult = s.lastResult := rfl

@[simp] theorem setInputs_cfg (l : List Input) : (s.setInputs l).cfg = s.cfg := rfl
@[simp] theorem setInputs_x (l : List Input) : (s.setInputs l).x = s.x := rfl
@[simp] theorem setInputs_pc (l : List Input) : (s.setInputs l).pc = s.pc := rfl
@[simp] theorem setInputs_flags (l : List Input) : (s.setInputs l).flags = s.flags := rfl
@[simp] theorem setInputs_pend (l : List Input) : (s.setInputs l).pend = s.pend := rfl
@[simp] theorem setInputs_queue (l : List Input) : (s.setInputs l).queue = s.queue := rfl
@[simp] theorem setInputs_mem (l : List Input) : (s.setInputs l).mem = s.mem := rfl
@[simp] theorem setInputs_sess (l : List Input) : (s.setInputs l).sess = s.sess := rfl
@[simp] theorem setInputs_output (l : List Input) : (s.setInputs l).output = s.output := rfl
@[simp] theorem setInputs_inputs (l : List Input) : (s.setInputs l).inputs = l := rfl
@[simp] theorem setInputs_lastResult (l : List Input) : (s.setInputs l).lastResult = s.lastResult := rfl

@[simp] theorem setResult_cfg (r : PortResult) : (s.setResult r).cfg = s.cfg := rfl
@[simp] theorem setResult_x (r : PortResult) : (s.setResult r).x = s.x := rfl
@[simp] theorem setResult_pc (r : PortResult) : (s.setResult r).pc = s.pc := rfl
@[simp] theorem setResult_flags (r : PortResult) : (s.setResult r).flags = s.flags := rfl
@[simp] theorem setResult_pend (r : PortResult) : (s.setResult r).pend = s.pend := rfl
@[simp] theorem setResult_queue (r : PortResult) : (s.setResult r).queue = s.queue := rfl
@[simp] theorem setResult_mem (r : PortResult) : (s.setResult r).mem = s.mem := rfl
@[simp] theorem setResult_sess (r : PortResult) : (s.setResult r).sess = s.sess := rfl
@[simp] theorem setResult_output (r : PortResult) : (s.setResult r).output = s.output := rfl
@[simp] theorem setResult_inputs (r : PortResult) : (s.setResult r).inputs = s.inputs := rfl
@[simp] theorem setResult_lastResult (r : PortResult) : (s.setResult r).lastResult = r := rfl

@[simp] theorem reset_cfg : State.reset.cfg = Config.base (addrSpace - 1) := rfl
@[simp] theorem reset_x : State.reset.x = Vector.replicate 8 0 := rfl
@[simp] theorem reset_pc : State.reset.pc = 0 := rfl
@[simp] theorem reset_flags : State.reset.flags = 0 := rfl
@[simp] theorem reset_pend : State.reset.pend = false := rfl
@[simp] theorem reset_queue : State.reset.queue = ⟨List.replicate 256 Interrupt.unspecified, 0, 0⟩ := rfl
@[simp] theorem reset_mem : State.reset.mem = [] := rfl
@[simp] theorem reset_sess : State.reset.sess = .idle := rfl
@[simp] theorem reset_output : State.reset.output = [] := rfl
@[simp] theorem reset_inputs : State.reset.inputs = [] := rfl
@[simp] theorem reset_lastResult : State.reset.lastResult = .nothing := rfl

end Sys2Proof.Machine.State
end

