-- ==== Sys2Proof/Laws/Ops.lean ====
section
/-! SUPPORT. One lemma per shared operation that says everything it can answer: sequencing, the pc advance, an interrupt's
delivery, the instructions and the extension entries. -/

namespace Sys2Proof.Machine

@[simp] theorem andThen_next {α β : Type} (a : α) (k : α → Answer β) : andThen (.next a) k = k a := rfl
@[simp] theorem andThen_fault {α β : Type} (r : Fault) (k : α → Answer β) : andThen (.fault r) k = .fault r := rfl
@[simp] theorem andThen_refused {α β : Type} (r : Refusal) (k : α → Answer β) :
    andThen (.refused r) k = .refused r := rfl

/-- A sequence answers next exactly when both parts do. -/
theorem andThen_eq_next {α β : Type} {o : Answer α} {k : α → Answer β} {b : β} :
    andThen o k = .next b ↔ ∃ a, o = .next a ∧ k a = .next b := by
  cases o <;> simp

/-- The pc advance answers a state with the exact sum in pc and nothing else changed. -/
theorem advancePc_eq_next {s t : State} {n : Nat} :
    advancePc s n = .next t ↔
      s.pc.toNat + n < addrSpace ∧ t = s.setPc (BitVec.ofNat 32 (s.pc.toNat + n)) := by
  unfold advancePc
  split <;> simp_all [eq_comm]

/-- An advance in range answers next. -/
theorem advancePc_of_lt {s : State} {n : Nat} (h : s.pc.toNat + n < addrSpace) :
    advancePc s n = .next (s.setPc (BitVec.ofNat 32 (s.pc.toNat + n))) := if_pos h

/-- The advanced pc is the exact sum: nothing wraps. -/
theorem toNat_ofNat_of_lt {n : Nat} (h : n < addrSpace) : (BitVec.ofNat 32 n).toNat = n := by
  simp only [BitVec.toNat_ofNat]; exact Nat.mod_eq_of_lt h

@[simp] theorem deliver_eq (irq : Interrupt) (s : State) :
    deliver irq s = (s.setPc s.cfg.dispatchTarget).setPend false := rfl

/-- Everything an instruction of the opcode table can do when it answers next: NOP, and there is no other. -/
theorem exec_eq_next {i : Instr} {s t : State} (h : exec i s = .next t) :
    i = .nop ∧ s.pc.toNat + nopLen < addrSpace ∧ t = s.setPc (BitVec.ofNat 32 (s.pc.toNat + nopLen)) := by
  cases i with
  | nop => exact ⟨rfl, advancePc_eq_next.1 h⟩

/-- Everything an extension entry can do when it answers next. -/
theorem execExtension_eq_next {f : Handler} {len : Nat} {s t : State} (h : execExtension f len s = .next t) :
    s.pc.toNat + len < addrSpace ∧
      t = (applyHandler f (readOperands s len) s).setPc (BitVec.ofNat 32 (s.pc.toNat + len)) :=
  advancePc_eq_next.1 h

/-- A port's record is no interrupt exactly when its kind is 3. -/
theorem recordOf_eq_none {raw : RawInterrupt} : recordOf raw = none ↔ raw.kind = 3 := by
  have hk : ∀ k : BitVec 2, k = 0 ∨ k = 1 ∨ k = 2 ∨ k = 3 := by decide
  unfold recordOf
  obtain h | h | h | h := hk raw.kind <;> simp [h]

/-- A port's record is carried in unchanged. -/
theorem recordOf_eq_some {raw : RawInterrupt} {irq : Interrupt} (h : recordOf raw = some irq) :
    irq.kind.code = raw.kind ∧ irq.number = raw.number ∧ irq.priority = raw.priority := by
  unfold recordOf at h
  repeat' split at h
  all_goals cases h
  all_goals simp_all [Kind.code]

@[simp] theorem applyHandler_pc (f : Handler) (ops : List Byte) (s : State) : (applyHandler f ops s).pc = s.pc := rfl
@[simp] theorem applyHandler_cfg (f : Handler) (ops : List Byte) (s : State) : (applyHandler f ops s).cfg = s.cfg := rfl

end Sys2Proof.Machine
end

