-- ==== Sys2Proof/Laws/Engine.lean ====
section
/-! SUPPORT. Everything an engine step can answer (40_engine_step.md R59), said once. -/

namespace Sys2Proof.Machine

/-- The poll takes an interrupt exactly when `INTERRUPT_POLL` is set and the queue is not empty. -/
theorem pollQueue_eq_some {s t : State} {irq : Interrupt} :
    pollQueue s = some (irq, t) ↔ s.cfg.interruptPoll = true ∧ s.queue.head ≠ s.queue.tail ∧
      irq = slotAt s.queue s.queue.head ∧
      t = s.setQueue { s.queue with head := (s.queue.head + 1) % s.cfg.queueCap } := by
  unfold pollQueue dequeue
  by_cases hp : s.cfg.interruptPoll = true <;> by_cases hq : s.queue.head = s.queue.tail <;>
    simp [hp, hq, eq_comm]

/-- The poll takes nothing exactly when it is off or the queue is empty. -/
theorem pollQueue_eq_none {s : State} :
    pollQueue s = none ↔ s.cfg.interruptPoll = false ∨ s.queue.head = s.queue.tail := by
  unfold pollQueue dequeue
  by_cases hp : s.cfg.interruptPoll = true <;> by_cases hq : s.queue.head = s.queue.tail <;> simp [hp, hq]

/-- The answers of an engine step. -/
inductive EngineCase (h : Handlers) (s : State) : State → StepResult → Prop where
  | delivered (hp : s.cfg.interruptPoll = true) (hq : s.queue.head ≠ s.queue.tail) :
      EngineCase h s (deliver (slotAt s.queue s.queue.head)
        (s.setQueue { s.queue with head := (s.queue.head + 1) % s.cfg.queueCap }))
        (.delivered (slotAt s.queue s.queue.head))
  | outOfBounds (hp : pollQueue s = none) (hl : s.cfg.storeLen ≤ s.pc.toNat ∨
      ∃ e, decodeTable s.cfg (fetchOpcode s) = some e ∧ s.cfg.storeLen < s.pc.toNat + entryLen e) :
      EngineCase h s s (.outOfBoundsFetch s.pc)
  | unknown (hp : pollQueue s = none) (hl : s.pc.toNat < s.cfg.storeLen)
      (hd : decodeTable s.cfg (fetchOpcode s) = none) (hr : s.pc.toNat + unknownSkip < addrSpace) :
      EngineCase h s (s.setPc (BitVec.ofNat 32 (s.pc.toNat + unknownSkip))) (.unknownOpcode (fetchOpcode s) s.pc)
  | instr (hp : pollQueue s = none) (hl : s.pc.toNat < s.cfg.storeLen)
      (i : Instr) (hd : decodeTable s.cfg (fetchOpcode s) = some (.instr i))
      (hb : s.pc.toNat + instrLen i ≤ s.cfg.storeLen) (t : State) (ht : exec i s = .next t) :
      EngineCase h s t .ok
  | extension (hp : pollQueue s = none) (hl : s.pc.toNat < s.cfg.storeLen)
      (len : Nat) (hd : decodeTable s.cfg (fetchOpcode s) = some (.extension len))
      (hb : s.pc.toNat + len ≤ s.cfg.storeLen) (hr : s.pc.toNat + len < addrSpace) :
      EngineCase h s ((applyHandler (h (fetchOpcode s)) (readOperands s len) s).setPc
        (BitVec.ofNat 32 (s.pc.toNat + len))) .ok

/-- An engine step that answers next is one of these cases. -/
theorem engineStep_cases {h : Handlers} {s t : State} {r : StepResult} (e : engineStep h s = .next (t, r)) :
    EngineCase h s t r := by
  unfold engineStep at e
  split at e
  · next irq u hu =>
    obtain ⟨hp, hq, rfl, rfl⟩ := pollQueue_eq_some.1 hu
    cases e
    exact .delivered hp hq
  · next hp =>
    unfold fetchAndExecute at e
    split at e
    · next hl => cases e; exact .outOfBounds hp (.inl hl)
    · next hl =>
      have hl' : s.pc.toNat < s.cfg.storeLen := by omega
      split at e
      · next hd =>
        obtain ⟨u, hu, hv⟩ := andThen_eq_next.1 e
        obtain ⟨hr, rfl⟩ := advancePc_eq_next.1 hu
        cases hv
        exact .unknown hp hl' hd hr
      · next en hd =>
        split at e
        · next hb => cases e; exact .outOfBounds hp (.inr ⟨en, hd, hb⟩)
        · next hb =>
          obtain ⟨u, hu, hv⟩ := andThen_eq_next.1 e
          cases hv
          cases en with
          | instr i => exact .instr hp hl' i hd (by simpa [entryLen] using hb) t hu
          | extension len =>
            obtain ⟨hr, rfl⟩ := execExtension_eq_next hu
            exact .extension hp hl' len hd (by simpa [entryLen] using hb) hr

end Sys2Proof.Machine
end

