-- ==== Sys2Proof/Laws/PerInstr.lean ====
section
/-! SUPPORT. The family `Encoding`: what each instruction's bytes decode to. -/

namespace Sys2Proof.Laws.Encoding

/-- The bytes of the instruction have its length, and whatever follows them, they decode to the instruction. -/
def Statement (i : Instr) : Prop :=
  (encode i).length = instrLen i ∧ ∀ rest : List Byte, decode (encode i ++ rest) = .ok (i, rest)

theorem nop : Statement .nop := ⟨rfl, fun _ => rfl⟩

end Sys2Proof.Laws.Encoding
end

