-- ==== Sys2Proof/Laws/Session.lean ====
section
/-! SUPPORT. Everything the session's operations can answer (42_debugger_session.md): emitting a result, the end of a
command, the burst, and the five commands. -/

namespace Sys2Proof.Machine

@[simp] theorem emitResult_cfg (r : StepResult) (s : State) : (emitResult r s).cfg = s.cfg := by cases r <;> rfl
@[simp] theorem emitResult_x (r : StepResult) (s : State) : (emitResult r s).x = s.x := by cases r <;> rfl
@[simp] theorem emitResult_pc (r : StepResult) (s : State) : (emitResult r s).pc = s.pc := by cases r <;> rfl
@[simp] theorem emitResult_flags (r : StepResult) (s : State) : (emitResult r s).flags = s.flags := by cases r <;> rfl
@[simp] theorem emitResult_pend (r : StepResult) (s : State) : (emitResult r s).pend = s.pend := by cases r <;> rfl
@[simp] theorem emitResult_queue (r : StepResult) (s : State) : (emitResult r s).queue = s.queue := by cases r <;> rfl
@[simp] theorem emitResult_mem (r : StepResult) (s : State) : (emitResult r s).mem = s.mem := by cases r <;> rfl
@[simp] theorem emitResult_sess (r : StepResult) (s : State) : (emitResult r s).sess = s.sess := by cases r <;> rfl
@[simp] theorem emitResult_inputs (r : StepResult) (s : State) : (emitResult r s).inputs = s.inputs := by cases r <;> rfl
@[simp] theorem emitResult_lastResult (r : StepResult) (s : State) : (emitResult r s).lastResult = s.lastResult := by cases r <;> rfl

/-- Emitting a result appends no event or one diagnostic. -/
theorem emitResult_output (r : StepResult) (s : State) :
    ∃ ds : List Diagnostic, ds.length ≤ 1 ∧ (emitResult r s).output = s.output ++ ds.map .diagnostic := by
  cases r
  · exact ⟨[], by simp, by simp [emitResult]⟩
  · exact ⟨[], by simp, by simp [emitResult]⟩
  · next p => exact ⟨[.outOfBoundsFetch p], by simp, rfl⟩
  · next op a => exact ⟨[.unknownOpcode op a], by simp, rfl⟩

/-- The end of a command writes the output stream, with one snapshot, and the session state. -/
theorem finishCommand_eq (s : State) :
    finishCommand s = { s with output := s.output ++ [.snapshot ⟨s.pc, s.flags, s.x⟩], sess := .idle } := rfl

/-- An engine step looks at neither the session state nor the output stream, and writes neither. -/
theorem engineStep_sess_output {h : Handlers} {s t : State} {r : StepResult} (e : engineStep h s = .next (t, r)) :
    t.sess = s.sess ∧ t.output = s.output := by
  cases engineStep_cases e with
  | delivered => exact ⟨rfl, rfl⟩
  | outOfBounds => exact ⟨rfl, rfl⟩
  | unknown => exact ⟨rfl, rfl⟩
  | instr _ _ i _ _ t ht => obtain ⟨-, -, rfl⟩ := exec_eq_next ht; exact ⟨rfl, rfl⟩
  | extension => exact ⟨rfl, rfl⟩

/-- An engine step takes no input from those offered. -/
theorem engineStep_inputs {h : Handlers} {s t : State} {r : StepResult} (e : engineStep h s = .next (t, r)) :
    t.inputs = s.inputs := by
  cases engineStep_cases e with
  | delivered => rfl
  | outOfBounds => rfl
  | unknown => rfl
  | instr _ _ i _ _ t ht => obtain ⟨-, -, rfl⟩ := exec_eq_next ht; rfl
  | extension => rfl

/-- What every engine step and the emission of its result keep, a burst keeps. -/
theorem runBurst_keeps {h : Handlers} {P : State → Prop}
    (hP : ∀ s t r, P s → engineStep h s = .next (t, r) → P (emitResult r t)) :
    ∀ (n : Nat) {s t : State}, P s → runBurst h n s = .next t → P t
  | 0, _, _, hs, e => by cases e; exact hs
  | n + 1, _, _, hs, e => by
    obtain ⟨p, hp, hk⟩ := andThen_eq_next.1 e
    have h1 := hP _ _ _ hs hp
    split at hk
    · cases hk; exact h1
    · exact runBurst_keeps hP n h1 hk

/-- Where every state of a kind takes an engine step to a state of that kind, a burst answers next. -/
theorem runBurst_answers {h : Handlers} {P : State → Prop}
    (hP : ∀ s, P s → ∃ t r, engineStep h s = .next (t, r) ∧ P (emitResult r t)) :
    ∀ (n : Nat) {s : State}, P s → ∃ t, runBurst h n s = .next t
  | 0, s, _ => ⟨s, rfl⟩
  | n + 1, s, hs => by
    obtain ⟨t, r, e, ht⟩ := hP s hs
    simp only [runBurst, e, andThen_next]
    split
    · exact ⟨_, rfl⟩
    · exact runBurst_answers hP n ht

/-- Step: one engine step, then the end of the command. -/
theorem commandStep_eq_next {h : Handlers} {s t : State} :
    commandStep h s = .next t ↔ ∃ u r, engineStep h (s.setSess .stepping) = .next (u, r) ∧
      t = finishCommand (emitResult r u) := by
  unfold commandStep
  rw [andThen_eq_next]
  constructor
  · rintro ⟨⟨u, r⟩, e, hk⟩; cases hk; exact ⟨u, r, e, rfl⟩
  · rintro ⟨u, r, e, rfl⟩; exact ⟨(u, r), e, rfl⟩

/-- Run: one burst, then the end of the command. -/
theorem commandRun_eq_next {h : Handlers} {s t : State} :
    commandRun h s = .next t ↔ ∃ u, runBurst h s.cfg.burst (s.setSess .running) = .next u ∧ t = finishCommand u := by
  unfold commandRun
  rw [andThen_eq_next]
  constructor
  · rintro ⟨u, e, hk⟩; cases hk; exact ⟨u, e, rfl⟩
  · rintro ⟨u, e, rfl⟩; exact ⟨u, e, rfl⟩

/-- The answers of a line's transaction, by the command it selects. -/
inductive LineCase (h : Handlers) (text : List Byte) (s : State) : State → Prop where
  | run (hc : parseLine s.cfg.caseFold text = .run) (u : State)
      (e : runBurst h s.cfg.burst (s.setSess .running) = .next u) : LineCase h text s (finishCommand u)
  | step (hc : parseLine s.cfg.caseFold text = .step) (u : State) (r : StepResult)
      (e : engineStep h (s.setSess .stepping) = .next (u, r)) : LineCase h text s (finishCommand (emitResult r u))
  | halt (hc : parseLine s.cfg.caseFold text = .halt) : LineCase h text s (s.setSess .halted)
  | inspect (hc : parseLine s.cfg.caseFold text = .inspect) :
      LineCase h text s (finishCommand (s.setSess .inspecting))
  | invalid (hc : parseLine s.cfg.caseFold text = .invalid) :
      LineCase h text s (s.emit (.diagnostic (.invalidCommand (stripTerminator text))))

theorem runLine_cases {h : Handlers} {text : List Byte} {s t : State} (e : runLine h text s = .next t) :
    LineCase h text s t := by
  unfold runLine at e
  split at e
  · next hc => obtain ⟨u, hu, rfl⟩ := commandRun_eq_next.1 e; exact .run hc u hu
  · next hc => obtain ⟨u, r, hu, rfl⟩ := commandStep_eq_next.1 e; exact .step hc u r hu
  · next hc => cases e; exact .halt hc
  · next hc => cases e; exact .inspect hc
  · next hc => cases e; exact .invalid hc

end Sys2Proof.Machine
end

