-- ==== Sys2Proof/Laws/Ports.lean ====
section
/-! SUPPORT. Everything a port transaction and a step of the machine can answer (10_state.md R33). -/

namespace Sys2Proof.Machine

/-- A port that needs an idle session answers next only in one. -/
theorem whenIdle_eq_next {s : State} {o : Answer (State × PortResult)} {p : State × PortResult} :
    whenIdle s o = .next p ↔ s.sess = .idle ∧ o = .next p := by
  unfold whenIdle
  split <;> simp_all

theorem whenIdle_of_idle {s : State} (h : s.sess = .idle) (o : Answer (State × PortResult)) : whenIdle s o = o :=
  if_pos h

theorem whenIdle_of_not_idle {s : State} (h : s.sess ≠ .idle) (o : Answer (State × PortResult)) :
    whenIdle s o = .refused .sessionNotIdle := if_neg h

/-- The answers of a transaction that happens. -/
inductive TransactCase (h : Handlers) (s : State) : Input → State → PortResult → Prop where
  | line (text : List Byte) (t : State) (c : LineCase h text s t) : TransactCase h s (.line text) t .nothing
  | endOfInput : TransactCase h s .endOfInput (s.setSess .halted) .nothing
  | queueFull (raw : RawInterrupt) (irq : Interrupt) (hr : recordOf raw = some irq)
      (e : enqueue s.cfg.queueCap irq s.queue = none) : TransactCase h s (.enqueue raw) s .queueFull
  | enqueued (raw : RawInterrupt) (irq : Interrupt) (hr : recordOf raw = some irq) (q : Queue)
      (e : enqueue s.cfg.queueCap irq s.queue = some q) : TransactCase h s (.enqueue raw) (s.setQueue q) .ok
  | queueEmpty (e : dequeue s.cfg.queueCap s.queue = none) : TransactCase h s .dequeue s .queueEmpty
  | dequeued (irq : Interrupt) (q : Queue) (e : dequeue s.cfg.queueCap s.queue = some (irq, q)) :
      TransactCase h s .dequeue (s.setQueue q) (.okRecord irq)
  | delivered (raw : RawInterrupt) (irq : Interrupt) (hr : recordOf raw = some irq) :
      TransactCase h s (.deliver raw) (deliver irq s) .ok
  | stored (a : Nat) (b : Byte) (ha : a < s.cfg.storeLen) : TransactCase h s (.storeWrite a b) (memWrite s a b) .ok

/-- A transaction happens only in an idle session, and is one of these cases. -/
theorem transact_cases {h : Handlers} {i : Input} {s t : State} {r : PortResult}
    (e : transact h i s = .next (t, r)) : s.sess = .idle ∧ TransactCase h s i t r := by
  cases i with
  | construct => cases e
  | line text =>
    obtain ⟨hi, e⟩ := whenIdle_eq_next.1 e
    obtain ⟨u, hu, hk⟩ := andThen_eq_next.1 e
    cases hk
    exact ⟨hi, .line text t (runLine_cases hu)⟩
  | endOfInput =>
    obtain ⟨hi, e⟩ := whenIdle_eq_next.1 e
    cases e
    exact ⟨hi, .endOfInput⟩
  | enqueue raw =>
    obtain ⟨hi, e⟩ := whenIdle_eq_next.1 e
    unfold portEnqueue at e
    split at e
    · cases e
    · next irq hr =>
      split at e
      · next hn => cases e; exact ⟨hi, .queueFull raw irq hr hn⟩
      · next q hq => cases e; exact ⟨hi, .enqueued raw irq hr q hq⟩
  | dequeue =>
    obtain ⟨hi, e⟩ := whenIdle_eq_next.1 e
    unfold portDequeue at e
    split at e
    · next hn => cases e; exact ⟨hi, .queueEmpty hn⟩
    · next irq q hq => cases e; exact ⟨hi, .dequeued irq q hq⟩
  | deliver raw =>
    obtain ⟨hi, e⟩ := whenIdle_eq_next.1 e
    unfold portDeliver at e
    split at e
    · cases e
    · next irq hr => cases e; exact ⟨hi, .delivered raw irq hr⟩
  | storeWrite a b =>
    obtain ⟨hi, e⟩ := whenIdle_eq_next.1 e
    unfold portStoreWrite at e
    split at e
    · next ha => cases e; exact ⟨hi, .stored a b ha⟩
    · cases e

/-- A transaction takes no further input from those offered. -/
theorem transact_inputs {h : Handlers} {i : Input} {s t : State} {r : PortResult}
    (e : transact h i s = .next (t, r)) : t.inputs = s.inputs := by
  cases (transact_cases e).2 with
  | line text t c =>
    cases c with
    | run _ u hu =>
      have k : u.inputs = s.inputs := runBurst_keeps (P := fun v => v.inputs = s.inputs)
        (fun a b r ha hb => by rw [emitResult_inputs, engineStep_inputs hb, ha]) _
        (s := s.setSess .running) rfl hu
      exact k
    | step _ u r hu =>
      have k : (emitResult r u).inputs = (s.setSess .stepping).inputs := by
        rw [emitResult_inputs, engineStep_inputs hu]
      exact k
    | halt => rfl
    | inspect => rfl
    | invalid => rfl
  | endOfInput => rfl
  | queueFull => rfl
  | enqueued => rfl
  | queueEmpty => rfl
  | dequeued => rfl
  | delivered => rfl
  | stored => rfl

/-- Everything a step of the machine can answer: it waits, a transaction happened, or an input was refused. -/
theorem offerNextInput_cases {h : Handlers} {s t : State} (e : offerNextInput h s = .next t) :
    (s.inputs = [] ∧ t = s) ∨
    (∃ i rest u r, s.inputs = i :: rest ∧ transact h i (s.setInputs rest) = .next (u, r) ∧ t = u.setResult r) ∨
    (∃ i rest why, s.inputs = i :: rest ∧ transact h i (s.setInputs rest) = .refused why ∧
      t = (s.setInputs rest).setResult (.refused why)) := by
  unfold offerNextInput at e
  split at e
  · next hn => cases e; exact .inl ⟨hn, rfl⟩
  · next i rest hi =>
    split at e
    · next u r hu => cases e; exact .inr (.inl ⟨i, rest, u, r, hi, hu, rfl⟩)
    · cases e
    · next why hu => cases e; exact .inr (.inr ⟨i, rest, why, hi, hu, rfl⟩)

end Sys2Proof.Machine
end

