-- ==== Sys2Proof/Tests/Slice0.lean ====
section
/-! SUPPORT. Tests of single operations, each against a vector of 95_test_vectors.md (named in its comment), and for every
obligation with hypotheses a witness that meets them all, at the boundaries where clauses meet. -/

namespace Sys2Proof.Tests

open Sys2Proof.Machine

/-! ## Helpers -/

/-- A configuration with 4 slots, bursts of 5, and 0x10 as the dispatch target. -/
def cfg4 : Config := { Config.base 0 with queueCap := 4, burst := 5, dispatchTarget := 0x10 }

/-- The example of 95_test_vectors.md section 2.1: opcode 0x01 has an extension entry of length 2. -/
def cfgExt : Config := { cfg4 with maxLen := 2, extTable := [⟨0x01, 2⟩] }

/-- A constructed core over a store of `bytes`. -/
def core (c : Config) (bytes : List Byte) : State :=
  { State.reset with
    cfg := { c with storeLen := bytes.length }
    queue := ⟨List.replicate c.queueCap Interrupt.unspecified, 0, 0⟩
    mem := Memory.ofBytes bytes }

/-- Handlers that leave the registers alone. -/
def keepHandlers : Handlers := fun _ x f _ => (x, f)

/-- The handler of the same example: x[0] takes the operand byte, zero-extended. -/
def loadHandlers : Handlers := fun _ x f ops => (x.set 0 ((ops.headD 0).zeroExtend 32), f)

def irqA : Interrupt := ⟨.hardware, 5, 0⟩
def irqB : Interrupt := ⟨.virtual, 2, 99⟩
def rawA : RawInterrupt := ⟨0, 5, 0⟩
def rawThree : RawInterrupt := ⟨3, 5, 0⟩

/-- The core with one record queued and the poll on. -/
def polling : State :=
  { core { cfg4 with interruptPoll := true } [0x90, 0x90] with
    queue := ⟨[irqA, irqB, irqA, irqA], 0, 2⟩ }

/-- A ring of 4 slots, full: three entries round the end. -/
def fullRing : Queue := ⟨[irqA, irqB, irqA, irqB], 2, 1⟩

/-- A ring of 4 slots, empty at its last slot. -/
def emptyRing : Queue := ⟨[irqA, irqB, irqA, irqB], 3, 3⟩

def answer {α : Type} (o : Answer α) : Option α :=
  match o with
  | .next a => some a
  | .fault _ => none
  | .refused _ => none

def refusal {α : Type} (o : Answer α) : Option Refusal :=
  match o with
  | .next _ => none
  | .fault _ => none
  | .refused r => some r

/-- The pc and the result of an engine step. -/
def pcAndResult (h : Handlers) (s : State) : Option (Addr × StepResult) :=
  (answer (engineStep h s)).map fun p => (p.1.pc, p.2)

def ascii (s : String) : List Byte := s.toList.map fun c => BitVec.ofNat 8 c.toNat

/-! ## Well-formedness: each check refuses a term (R10; vectors K2 to K5) -/

theorem test_wf_largest_store : (Config.base (2 ^ 32 - 1)).wf := by decide
theorem test_wf_no_slots : ¬ ({ cfg4 with queueCap := 0 } : Config).wf := by decide
theorem test_wf_no_burst : ¬ ({ cfg4 with burst := 0 } : Config).wf := by decide
theorem test_wf_no_length : ¬ ({ cfg4 with maxLen := 0 } : Config).wf := by decide
theorem test_wf_store_too_long : ¬ ({ cfgExt with storeLen := 2 ^ 32 - 1 } : Config).wf := by decide
theorem test_wf_entry_for_nop : ¬ ({ cfg4 with extTable := [⟨0x90, 1⟩] } : Config).wf := by decide
theorem test_wf_entry_of_length_zero : ¬ ({ cfg4 with extTable := [⟨0x01, 0⟩] } : Config).wf := by decide
theorem test_wf_entry_too_long : ¬ ({ cfg4 with extTable := [⟨0x01, 2⟩] } : Config).wf := by decide

/-- NOP has no operand, so it has no ill-formed term (R51). -/
theorem test_wf_every_instruction : ∀ i : Instr, i.wellFormed = true := by intro i; cases i; rfl

/-- A memory that lists a byte equal to the unlisted one, or out of order, is not in the canonical form. -/
theorem test_wf_memory : ¬ Memory.wf [(3, 0x00)] ∧ ¬ Memory.wf [(3, 0x90), (2, 0x90)] := by decide

/-! ## Encoding (R50, R51, R56) -/

theorem test_decode_nop_bits : decode [0b10010000, 0x01] = .ok (.nop, [0x01]) := rfl
theorem test_decode_neighbours : decode [0x8F] = .error (.unregistered 0x8F) ∧
    decode [0x91] = .error (.unregistered 0x91) := ⟨rfl, rfl⟩
theorem test_decode_nothing : decode [] = .error .noOpcodeByte := rfl
theorem test_encode_nop : encode .nop = [0b10010000] := rfl
theorem test_table_word : decodeTableWord 8 0x90 = some .nop ∧ decodeTableWord 8 0x00 = none := by decide
theorem test_decode_table_extension : decodeTable cfgExt 0x01 = some (.extension 2) ∧
    decodeTable cfgExt 0x02 = none := by decide

/-- Program P1. -/
theorem test_assemble : assemble [.nop, .byte 0x00, .nop] = [0x90, 0x00, 0x90] := rfl

/-! ## The engine step (vectors E1 to E9, X1, X2, D1, P4) -/

/-- E1. -/
theorem test_nop_step : pcAndResult keepHandlers (core cfg4 [0x90]) = some (1, .ok) := by decide
/-- E4. -/
theorem test_step_at_end : pcAndResult keepHandlers ((core cfg4 [0x90, 0x90, 0x90]).setPc 3) =
    some (3, .outOfBoundsFetch 3) := by decide
/-- E3. -/
theorem test_step_empty_store : pcAndResult keepHandlers (core cfg4 []) = some (0, .outOfBoundsFetch 0) := by decide
/-- E7. -/
theorem test_step_unknown_last : pcAndResult keepHandlers ((core cfg4 [0x90, 0x90, 0xFF]).setPc 2) =
    some (3, .unknownOpcode 0xFF 2) := by decide
/-- E9. -/
theorem test_step_unknown_neighbour : pcAndResult keepHandlers (core cfg4 [0x91]) =
    some (1, .unknownOpcode 0x91 0) := by decide
/-- X1. -/
theorem test_extension_loads : (answer (engineStep loadHandlers (core cfgExt [0x01, 0x7F]))).map
    (fun p => (p.1.x[0], p.1.x[1], p.1.pc, p.2)) = some (0x7F, 0, 2, .ok) := by decide
/-- X3. -/
theorem test_extension_past_end : (answer (engineStep loadHandlers ((core cfgExt [0x90, 0x01]).setPc 1))).map
    (fun p => (p.1.x[0], p.1.pc, p.2)) = some (0, 1, .outOfBoundsFetch 1) := by decide
/-- D1. -/
theorem test_deliver : ((deliver irqA ((core cfg4 [0x90]).setPc 2)).pc, (deliver irqA polling).queue) =
    (0x10, polling.queue) := by decide
/-- P4, first call. -/
theorem test_poll_delivers : (answer (engineStep keepHandlers polling)).map
    (fun p => (p.1.pc, p.1.queue.head, p.2)) = some (0x10, 1, .delivered irqA) := by decide

/-! ## The queue (vectors Q1, Q4, Q5, Q7, Q8, Q9) -/

/-- Q1. -/
theorem test_dequeue_empty : dequeue 256 ⟨[], 0, 0⟩ = none := by decide
/-- Q4: the slot at the end, and the index wraps. -/
theorem test_enqueue_wraps : (enqueue 4 irqB emptyRing).map (fun q => (q.head, q.tail, q.slots[3]?)) =
    some (3, 0, some irqB) := by decide
/-- Q5. -/
theorem test_one_slot : enqueue 1 irqA ⟨[irqB], 0, 0⟩ = none ∧ dequeue 1 ⟨[irqB], 0, 0⟩ = none := by decide
/-- Q7: the oldest entry comes first, whatever its priority. -/
theorem test_priority_ignored : (dequeue 4 ⟨[irqA, irqB, irqA, irqA], 0, 2⟩).map (fun p => (p.1, p.2.head)) =
    some (irqA, 1) := by decide
/-- Q8. -/
theorem test_enqueue_full : enqueue 4 irqA fullRing = none := by decide
/-- Q9. -/
theorem test_enqueue_kind_three :
    refusal (transact keepHandlers (.enqueue rawThree) (core cfg4 [0x90])) = some .noSuchKind := rfl

/-! ## The session (the parse vectors; S1, S6, S7, S9, S10, S-C) -/

theorem test_parse_tokens : parseLine false (ascii "go\r\n") = .run ∧ parseLine false (ascii "nextx") = .step ∧
    parseLine false (ascii "stopped\n") = .halt ∧ parseLine false (ascii "statement") = .inspect := by decide
theorem test_parse_invalid : parseLine false (ascii "stat") = .invalid ∧ parseLine false (ascii " go") = .invalid ∧
    parseLine false [] = .invalid ∧ parseLine false (ascii "g") = .invalid := by decide
theorem test_parse_case : parseLine false (ascii "GO") = .invalid ∧ parseLine true (ascii "GO") = .run ∧
    parseLine false (ascii "Next") = .invalid ∧ parseLine true (ascii "Next") = .step := by decide
theorem test_lines : operatorInputs (ascii "go\nnext") =
    [.line (ascii "go\n"), .line (ascii "next"), .endOfInput] := by decide

/-- The output and session state after one line. -/
def afterLine (text : List Byte) (s : State) : Option (List Event × SessionState) :=
  (answer (transact keepHandlers (.line text) s)).map fun p => (p.1.output, p.1.sess)

/-- S1. -/
theorem test_next_at_end : afterLine (ascii "next") ((core cfg4 [0x90]).setPc 1) =
    some ([.diagnostic (.outOfBoundsFetch 1), .snapshot ⟨1, 0, Vector.replicate 8 0⟩], .idle) := by decide
/-- S2. -/
theorem test_go_to_end : afterLine (ascii "go") (core cfg4 [0x90, 0x00]) =
    some ([.diagnostic (.unknownOpcode 0x00 1), .diagnostic (.outOfBoundsFetch 2),
      .snapshot ⟨2, 0, Vector.replicate 8 0⟩], .idle) := by decide
/-- S6. -/
theorem test_state : afterLine (ascii "state") (core cfg4 [0x90]) =
    some ([.snapshot ⟨0, 0, Vector.replicate 8 0⟩], .idle) := by decide
/-- S7. -/
theorem test_stop : afterLine (ascii "stop") (core cfg4 [0x90]) = some ([], .halted) := by decide
/-- S-C. -/
theorem test_foo : afterLine (ascii "foo\n") (core cfg4 [0x90]) =
    some ([.diagnostic (.invalidCommand (ascii "foo"))], .idle) := by decide
/-- S9. -/
theorem test_halted_refuses : refusal (transact keepHandlers (.line (ascii "next"))
    ((core cfg4 [0x90]).setSess .halted)) = some .sessionNotIdle := rfl
/-- 20_memory.md R42. -/
theorem test_store_write : (answer (transact keepHandlers (.storeWrite 1 0x00) (core cfg4 [0x90, 0x90]))).map
    (fun p => (p.1.mem, p.2)) = some ([(0, 0x90)], .ok) := by decide

/-- S-A, first line, from reset with NOP placed. -/
theorem test_placed_nop : (answer (step (State.reset.withFetchWord 8 0x90))).map (fun s => (s.pc, s.output)) =
    some (1, [.snapshot ⟨1, 0, Vector.replicate 8 0⟩]) := by decide

/-! ## Witnesses: hypotheses that hold together -/

/-- A core over two NOPs and an unregistered byte, pc at the second NOP. -/
def sample : State := (core cfg4 [0x90, 0x90, 0xCC]).setPc 1

/-- The same core with its operator about to say `next`. -/
def sampleNext : State := sample.setInputs [.line tokenNext]

theorem sample_sound : coreSound sample := by decide

theorem witness_ConstructSetsEveryPart : (cfg4.wf ∧ Memory.wf [] ∧ ∀ c ∈ ([] : Memory), c.1 < cfg4.storeLen) ∧
    ¬ ({ cfg4 with burst := 0 } : Config).wf := by decide
theorem witness_EveryStepKeepsTheCoreSound : coreSound sampleNext ∧ ∃ t, step sampleNext = .next t :=
  ⟨by decide, _, rfl⟩
theorem witness_SoundCoreAlwaysSteps : coreSound sampleNext := by decide
theorem witness_TransactionsAreTotalOnAcceptedInputs : coreSound sample ∧ accepts sample (.storeWrite 2 0x90) ∧
    ¬ accepts sample (.storeWrite 3 0x90) ∧ accepts sample (.enqueue rawA) ∧ ¬ accepts sample (.enqueue rawThree) := by
  refine ⟨by decide, ?_, ?_, ?_, ?_⟩ <;> simp only [accepts] <;> decide
theorem witness_RefusedInputLeavesTheCoreAlone : (sample.setInputs [.storeWrite 3 0x90]).inputs = [.storeWrite 3 0x90] ∧
    ¬ accepts (sample.setInputs [.storeWrite 3 0x90]) (.storeWrite 3 0x90) := by
  refine ⟨rfl, ?_⟩; simp only [accepts]; decide
theorem witness_WaitingChangesNothing : sample.inputs = [] := rfl
theorem witness_ConfigurationNeverChanges : ∃ t, step sampleNext = .next t := ⟨_, rfl⟩
theorem witness_OutputOnlyGrows : ∃ t, step sampleNext = .next t := ⟨_, rfl⟩
theorem witness_HostPortsLeaveTheRegistersAlone : (∀ text, Input.dequeue ≠ .line text) ∧
    (∀ raw, Input.dequeue ≠ .deliver raw) ∧ ∃ t r, transact keepHandlers .dequeue polling = .next (t, r) := by
  refine ⟨?_, ?_, _, _, rfl⟩ <;> intro _ h <;> cases h
theorem witness_DecodeAndEncodeAgree : Instr.nop.wellFormed = true := rfl
theorem witness_DecodeTableHoldsNopAndTheExtensions : cfgExt.wf ∧ (0x01 : Byte) ≠ 0x90 ∧
    extLength cfgExt.extTable 0x01 = some 2 ∧ (0x02 : Byte) ≠ 0x90 ∧ extLength cfgExt.extTable 0x02 = none ∧
    decodeTable cfgExt 0x01 = some (.extension 2) ∧ (⟨0x01, 2⟩ : ExtEntry) ∈ cfgExt.extTable ∧
    ∀ e ∈ cfgExt.extTable, e.opcode = 0x01 → e = ⟨0x01, 2⟩ := by decide
theorem witness_NopCompletes : (sample.setPc 2).cfg.wf ∧ (sample.setPc 2).pc.toNat < (sample.setPc 2).cfg.storeLen := by
  decide
theorem witness_NopFrame : ∃ t, exec .nop sample = .next t := ⟨_, rfl⟩
theorem witness_NopStopsOnlyPastTheAddressSpace : addrSpace ≤ (sample.setPc 0xFFFFFFFF).pc.toNat + 1 ∧
    (sample.setPc 0xFFFFFFFE).pc.toNat + 1 < addrSpace := by decide
theorem witness_NopStepAdvancesPcByOne : (core cfg4 [0x90]).cfg.wf ∧ noPoll (core cfg4 [0x90]) ∧
    (core cfg4 [0x90]).pc.toNat < (core cfg4 [0x90]).cfg.storeLen ∧
    memRead (core cfg4 [0x90]) (core cfg4 [0x90]).pc.toNat = 0x90 ∧
    (core cfg4 [0x90]).pc.toNat + 1 = (core cfg4 [0x90]).cfg.storeLen := by decide
theorem witness_StepRunsTheDecodedInstruction : Instr.nop.wellFormed = true ∧ noPoll sampleNext ∧
    sampleNext.pc.toNat + 2 ≤ sampleNext.cfg.storeLen ∧
    decode (memReadBytes sampleNext sampleNext.pc.toNat 2) = .ok (.nop, [0xCC]) ∧ sampleNext.sess = .idle ∧
    sampleNext.inputs = .line tokenNext :: [] ∧ parseLine sampleNext.cfg.caseFold tokenNext = .step :=
  ⟨rfl, by decide, by decide, rfl, rfl, rfl, by decide⟩
theorem witness_OutOfBoundsFetchChangesNothing : noPoll (sample.setPc 3) ∧
    (sample.setPc 3).cfg.storeLen ≤ (sample.setPc 3).pc.toNat := by decide
theorem witness_UnknownOpcodeSkipsOneByte : (sample.setPc 2).cfg.wf ∧ noPoll (sample.setPc 2) ∧
    (sample.setPc 2).pc.toNat < (sample.setPc 2).cfg.storeLen ∧
    decodeTable (sample.setPc 2).cfg (memRead (sample.setPc 2) (sample.setPc 2).pc.toNat) = none ∧
    cfg4.extTable = [] := by decide
/-- One entry that ends at L, and one that passes it by one byte. -/
theorem witness_ExtensionEntryRunsItsHandler : (core cfgExt [0x01, 0x7F]).cfg.wf ∧ noPoll (core cfgExt [0x01, 0x7F]) ∧
    (core cfgExt [0x01, 0x7F]).pc.toNat < (core cfgExt [0x01, 0x7F]).cfg.storeLen ∧
    extLength cfgExt.extTable (memRead (core cfgExt [0x01, 0x7F]) 0) = some 2 ∧
    (core cfgExt [0x01, 0x7F]).pc.toNat + 2 ≤ (core cfgExt [0x01, 0x7F]).cfg.storeLen ∧
    extLength cfgExt.extTable (memRead (core cfgExt [0x01]) 0) = some 2 ∧
    (core cfgExt [0x01]).pc.toNat < (core cfgExt [0x01]).cfg.storeLen ∧
    (core cfgExt [0x01]).cfg.storeLen < (core cfgExt [0x01]).pc.toNat + 2 := by decide
/-- A state for each phase: the poll, pc = L, no handler, an entry past L, an entry that fits. -/
theorem witness_FirstApplicablePhaseDecidesTheResult : (engineSound polling ∧ ¬ noPoll polling) ∧
    (engineSound (sample.setPc 3) ∧ noPoll (sample.setPc 3) ∧ (sample.setPc 3).cfg.storeLen ≤ (sample.setPc 3).pc.toNat) ∧
    (engineSound (sample.setPc 2) ∧ (sample.setPc 2).pc.toNat < (sample.setPc 2).cfg.storeLen ∧
      decodeTable cfg4 (memRead (sample.setPc 2) 2) = none) ∧
    (engineSound (core cfgExt [0x01]) ∧ decodeTable cfgExt (memRead (core cfgExt [0x01]) 0) = some (.extension 2) ∧
      (core cfgExt [0x01]).cfg.storeLen < 0 + entryLen (.extension 2)) ∧
    (engineSound sample ∧ decodeTable cfg4 (memRead sample 1) = some (.instr .nop) ∧
      sample.pc.toNat + entryLen (.instr .nop) ≤ sample.cfg.storeLen) := by
  refine ⟨?_, ?_, ?_, ?_, ?_⟩ <;> decide
theorem witness_EngineStepFrame : sample.cfg.interruptPoll = false ∧
    ∃ t r, engineStep keepHandlers sample = .next (t, r) := ⟨rfl, _, _, rfl⟩
theorem witness_EngineStepMovesPcForward : engineSound sample ∧ noPoll sample ∧
    ∃ t r, engineStep keepHandlers sample = .next (t, r) := ⟨by decide, by decide, _, _, rfl⟩
theorem witness_BaseEngineReachesTheEnd : engineSound sample ∧ baseTable sample ∧ sample.cfg.interruptPoll = false ∧
    sample.pc.toNat < sample.cfg.storeLen := by decide
theorem witness_BaseRegistersStayZero : baseTable sampleNext ∧ registersZero sampleNext ∧
    extLength sampleNext.cfg.extTable (memRead sampleNext sampleNext.pc.toNat) = none ∧
    (∃ t r, engineStep keepHandlers sampleNext = .next (t, r)) ∧ ∃ t, step sampleNext = .next t :=
  ⟨by decide, by decide, by decide, ⟨_, _, rfl⟩, _, rfl⟩
theorem witness_PolledInterruptIsDelivered : polling.cfg.interruptPoll = true ∧
    polling.queue.head ≠ polling.queue.tail := by decide
theorem witness_DeliveryWritesPcAndPend : sample.sess = .idle ∧ rawA.kind ≠ 3 ∧ ¬ noPoll polling ∧ noPoll sample ∧
    sample.cfg.storeLen ≤ sample.cfg.dispatchTarget.toNat := by decide
theorem witness_PollingRunDeliversTheOldestFirst : engineSound polling ∧ polling.cfg.interruptPoll = true ∧
    2 ≤ queueCount polling.cfg.queueCap polling.queue := by decide
theorem witness_KindThreeIsRefused : sample.sess = .idle ∧ rawThree.kind = 3 ∧ (⟨2, 0, 0⟩ : RawInterrupt).kind ≠ 3 := by
  decide
/-- A full ring, one with room, and a ring of one slot. -/
theorem witness_EnqueueAppendsAtTail : sample.sess = .idle ∧ recordOf rawA = some irqA ∧
    (queueSound (sample.setQueue fullRing).cfg.queueCap fullRing ∧ (1 + 4 - 2) % 4 = 4 - 1) ∧
    (queueSound sample.cfg.queueCap sample.queue ∧
      (sample.queue.tail + sample.cfg.queueCap - sample.queue.head) % sample.cfg.queueCap ≠ sample.cfg.queueCap - 1) ∧
    queueSound 1 (core { cfg4 with queueCap := 1 } [0x90]).queue := by decide
theorem witness_DequeueTakesTheHead : polling.sess = .idle ∧ queueSound polling.cfg.queueCap polling.queue ∧
    polling.queue.head ≠ polling.queue.tail ∧ queueSound sample.cfg.queueCap sample.queue ∧
    sample.queue.head = sample.queue.tail ∧ queueSound 1 (core { cfg4 with queueCap := 1 } [0x90]).queue := by decide
theorem witness_QueueIsABoundedList : queueSound 4 emptyRing ∧ queueSound 4 fullRing ∧
    (∃ q', enqueue 4 irqA emptyRing = some q') ∧ ∃ irq q', dequeue 4 fullRing = some (irq, q') :=
  ⟨by decide, by decide, ⟨_, rfl⟩, _, _, rfl⟩
theorem witness_FifoLaw : queueSound 4 emptyRing ∧ emptyRing.head = emptyRing.tail ∧
    (runQueue 4 [.put irqA, .put irqB, .take] emptyRing).2 = ([irqA, irqB], [irqA]) := by decide
theorem witness_CapacityLaw : queueSound 4 fullRing ∧ queueCount 4 fullRing = 4 - 1 ∧
    ∃ irq q', dequeue 4 fullRing = some (irq, q') := ⟨by decide, by decide, _, _, rfl⟩
theorem witness_IndicesComeRoundTheRing : queueSound 4 emptyRing ∧ emptyRing.head = emptyRing.tail ∧
    [irqA, irqB, irqA, irqB].length = 4 := by decide
theorem witness_SelectorReadsNoRecord : queueSound 4 fullRing ∧ ∃ irq q', dequeue 4 fullRing = some (irq, q') :=
  ⟨by decide, _, _, rfl⟩
/-- The last address of the store, and the first one past it. -/
theorem witness_OnlyTheHostWritesTheStore : coreSound sample ∧ sample.sess = .idle ∧ 2 < sample.cfg.storeLen ∧
    sample.cfg.storeLen ≤ 3 ∧ (sample.setSess .halted).sess ≠ .idle ∧ (∀ a b, Input.endOfInput ≠ .storeWrite a b) ∧
    ∃ t r, transact keepHandlers .endOfInput sample = .next (t, r) := by
  refine ⟨by decide, by decide, by decide, by decide, by decide, ?_, _, _, rfl⟩
  intro _ _ h; cases h
/-- The opcode byte at pc as NOP, as an unregistered byte, and as an entry that ends at L; and that entry's operand byte. -/
theorem witness_StoreWriteReachesTheNextFetch : (coreSound sample ∧ sample.sess = .idle ∧ noPoll sample ∧
    sample.pc.toNat < sample.cfg.storeLen ∧ decodeTable sample.cfg 0x91 = none) ∧
    (coreSound (core cfgExt [0x01, 0x7F]) ∧ 1 < (core cfgExt [0x01, 0x7F]).cfg.storeLen ∧
      (∃ t, transact keepHandlers (.storeWrite 0 0x01) (core cfgExt [0x90, 0x7F]) = .next (t, .ok) ∧
        extLength cfgExt.extTable (memRead t 0) = some 2) ∧
      ∃ t, transact keepHandlers (.storeWrite 1 0x05) (core cfgExt [0x01, 0x7F]) = .next (t, .ok) ∧
        extLength cfgExt.extTable (memRead t 0) = some 2 ∧ 0 + 2 ≤ t.cfg.storeLen) :=
  ⟨by decide, by decide, by decide, ⟨_, rfl, by decide⟩, _, rfl, by decide, by decide⟩
theorem witness_LinesEndAtLineFeeds : ([] : List Byte).getLast? ≠ some 0x0D ∧
    (ascii "go\r").getLast? ≠ some 0x0A := by decide
theorem witness_StepCommandRunsOneStep : coreSound sample ∧ sample.sess = .idle ∧
    parseLine sample.cfg.caseFold tokenNext = .step := by decide
theorem witness_RunCommandRunsABurst : coreSound sample ∧ sample.sess = .idle ∧
    parseLine sample.cfg.caseFold tokenGo = .run ∧
    (∃ t p, engineStep keepHandlers (sample.setPc 3) = .next (t, .outOfBoundsFetch p)) ∧
    ∃ t, engineStep keepHandlers sample = .next (t, .ok) := ⟨by decide, rfl, by decide, ⟨_, _, rfl⟩, _, rfl⟩
theorem witness_BurstLaw : engineSound sample ∧ baseTable sample ∧ sample.cfg.interruptPoll = false ∧
    resultAt keepHandlers 0 sample = some .ok ∧ resultAt keepHandlers 1 sample = some (.unknownOpcode 0xCC 2) ∧
    resultAt keepHandlers 2 sample = some (.outOfBoundsFetch 3) := by decide
theorem witness_BaseRunAdvancesByTheBurstOrToTheEnd : coreSound sample ∧ sample.sess = .idle ∧ baseTable sample ∧
    sample.cfg.interruptPoll = false ∧ parseLine sample.cfg.caseFold tokenGo = .run := by decide
theorem witness_InspectEmitsOneSnapshot : sample.sess = .idle ∧
    parseLine sample.cfg.caseFold tokenState = .inspect := by decide
theorem witness_HaltAndEndOfInputAgree : sample.sess = .idle ∧
    parseLine sample.cfg.caseFold tokenStop = .halt := by decide
theorem witness_InvalidCommandEmitsOneDiagnostic : sample.sess = .idle ∧
    parseLine sample.cfg.caseFold [] = .invalid := by decide
theorem witness_HaltedIsTerminal : (sampleNext.setSess .halted).sess = .halted := rfl
theorem witness_SessionEndsOnlyByHaltOrEndOfInput : (sample.setInputs [.endOfInput]).sess ≠ .halted ∧
    ∃ t, step (sample.setInputs [.endOfInput]) = .next t ∧ t.sess = .halted := ⟨by decide, _, rfl, rfl⟩
theorem witness_CommandsEmitTheStatedEvents : (∃ t r, transact keepHandlers (.line tokenGo) sample = .next (t, r)) ∧
    (∃ t r, transact keepHandlers (.line tokenNext) sample = .next (t, r)) ∧
    ∃ t r, transact keepHandlers .endOfInput sample = .next (t, r) := ⟨⟨_, _, rfl⟩, ⟨_, _, rfl⟩, _, _, rfl⟩
theorem witness_LinesNeverTouchTheQueue : sample.cfg.interruptPoll = false ∧
    ∃ t r, transact keepHandlers (.line tokenGo) sample = .next (t, r) := ⟨rfl, _, _, rfl⟩
theorem witness_PlacedNopRunsNext : Memory.wf State.reset.mem ∧ State.reset.pc.toNat + 1 < addrSpace := by decide
theorem witness_StepPerformsTheOfferedTransaction : coreSound (sample.setInputs [.enqueue rawA, .dequeue]) ∧
    (sample.setInputs [.enqueue rawA, .dequeue]).inputs = .enqueue rawA :: [.dequeue] ∧
    accepts (sample.setInputs [.enqueue rawA, .dequeue]) (.enqueue rawA) ∧
    ∃ t r, transact Config.extHandlers (.enqueue rawA) (sample.setInputs [.dequeue]) = .next (t, r) := by
  refine ⟨by decide, rfl, ?_, _, _, rfl⟩
  simp only [accepts]; decide

/-- Two entries of one opcode: the first one's length. -/
theorem witness_ExtensionLookupTakesTheFirstEntry : extLength [⟨0x02, 1⟩, ⟨0x01, 2⟩, ⟨0x01, 3⟩] 0x01 = some 2 ∧
    extLength [⟨0x02, 1⟩] 0x01 = none := by decide

end Sys2Proof.Tests
end

/-! # Scope: what every step keeps, that no sound core is stopped, and which inputs have a transaction

Both halves follow the model's own layers: the engine step, the burst, the operator's line, the port's transaction, the
machine's step. Each layer has one lemma that it keeps soundness and one that it answers. -/

namespace Sys2Proof

/-! ## The extension table's lookup -/

/-- The lookup fails exactly where no entry is the opcode's. -/
theorem extLength_eq_none {table : List ExtEntry} {op : Byte} :
    extLength table op = none ↔ ∀ e ∈ table, e.opcode ≠ op := by
  induction table with
  | nil => simp [extLength]
  | cons e rest ih => by_cases he : e.opcode = op <;> simp [extLength, he, ih]

/-- The first entry of an opcode gives its length, whatever stands after it. -/
theorem extLength_append_cons {before after : List ExtEntry} {e : ExtEntry}
    (hb : ∀ e' ∈ before, e'.opcode ≠ e.opcode) : extLength (before ++ e :: after) e.opcode = some e.len := by
  induction before with
  | nil => simp [extLength]
  | cons d ds ih =>
    obtain ⟨hd, hds⟩ := List.forall_mem_cons.1 hb
    simp [extLength, hd, ih hds]

/-- A lookup that succeeds has found the first entry of the opcode. -/
theorem exists_first_of_extLength {table : List ExtEntry} {op : Byte} {len : Nat} (hl : extLength table op = some len) :
    ∃ before e after, table = before ++ e :: after ∧
      (∀ e' ∈ before, e'.opcode ≠ op) ∧ e.opcode = op ∧ e.len = len := by
  induction table with
  | nil => cases hl
  | cons d rest ih =>
    by_cases hd : d.opcode = op
    · exact ⟨[], d, rest, rfl, by simp, hd, by simpa [extLength, hd] using hl⟩
    · obtain ⟨before, e, after, rfl, hb, ho, hn⟩ := ih (by simpa [extLength, hd] using hl)
      exact ⟨d :: before, e, after, rfl, List.forall_mem_cons.2 ⟨hd, hb⟩, ho, hn⟩

namespace Machine

/-! ## What every operation keeps -/

/-- The invariant between engine steps reads the configuration, the queue, the store and `pend`, and nothing else. -/
theorem engineSound_of_eq {s t : State} (hs : engineSound s) (hcfg : t.cfg = s.cfg) (hqueue : t.queue = s.queue)
    (hmem : t.mem = s.mem) (hpend : t.pend = s.pend) : engineSound t := by
  simpa only [engineSound, storeSound, hcfg, hqueue, hmem, hpend] using hs

/-- A queue operation that keeps the queue's sizes keeps the invariant. -/
theorem engineSound_setQueue {s : State} {q : Queue} (hs : engineSound s) (hq : queueSound s.cfg.queueCap q) :
    engineSound (s.setQueue q) := by
  obtain ⟨hwf, -, hstore, hpend⟩ := hs
  exact ⟨hwf, hq, hstore, hpend⟩

/-- A delivery clears `pend` and writes nothing else that the invariant reads. -/
theorem engineSound_deliver {s : State} (irq : Interrupt) (hs : engineSound s) : engineSound (deliver irq s) := by
  obtain ⟨hwf, hqueue, hstore, -⟩ := hs
  exact ⟨hwf, hqueue, hstore, rfl⟩

/-- A host write inside the store lists no address outside it (20_memory.md R42). -/
theorem engineSound_memWrite {s : State} {a : Nat} (b : Byte) (hs : engineSound s) (ha : a < s.cfg.storeLen) :
    engineSound (memWrite s a b) := by
  obtain ⟨hwf, hqueue, ⟨hmem, hlisted⟩, hpend⟩ := hs
  refine ⟨hwf, hqueue, ⟨memWrite_wf hmem a b, fun c hc => ?_⟩, hpend⟩
  obtain hold | ⟨rfl, -⟩ := Memory.mem_write hc
  · exact hlisted c hold
  · exact ha

theorem engineSound_emitResult {s : State} (r : StepResult) (hs : engineSound s) : engineSound (emitResult r s) :=
  engineSound_of_eq hs (by simp) (by simp) (by simp) (by simp)

/-- A command ends in a sound core: it emits one snapshot, and the session is Idle. -/
theorem coreSound_finishCommand {s : State} (hs : engineSound s) : coreSound (finishCommand s) :=
  ⟨engineSound_of_eq hs rfl rfl rfl rfl, .inl rfl⟩

/-- An engine step keeps the invariant, whichever phase decides it. -/
theorem engineSound_engineStep {h : Handlers} {s t : State} {r : StepResult} (hs : engineSound s)
    (e : engineStep h s = .next (t, r)) : engineSound t := by
  have ⟨_, hqueue, _, _⟩ := hs
  cases engineStep_cases e with
  | delivered _ hne =>
    have hq := dequeue_sound hqueue (dequeue_eq_some.2 ⟨hne, rfl, rfl⟩)
    exact engineSound_deliver _ (engineSound_setQueue hs hq)
  | outOfBounds => exact hs
  | unknown => exact engineSound_of_eq hs rfl rfl rfl rfl
  | instr _ _ _ _ _ _ ht => obtain ⟨-, -, rfl⟩ := exec_eq_next ht; exact engineSound_of_eq hs rfl rfl rfl rfl
  | extension => exact engineSound_of_eq hs rfl rfl rfl rfl

theorem engineSound_runBurst {h : Handlers} {n : Nat} {s t : State} (hs : engineSound s)
    (e : runBurst h n s = .next t) : engineSound t :=
  runBurst_keeps (fun _ _ r hu hstep => engineSound_emitResult r (engineSound_engineStep hu hstep)) n hs e

/-- Every command that an operator's line selects leaves a sound core. -/
theorem coreSound_of_lineCase {h : Handlers} {text : List Byte} {s t : State} (hs : coreSound s)
    (c : LineCase h text s t) : coreSound t := by
  obtain ⟨heng, hsess⟩ := hs
  have hset (v : SessionState) : engineSound (s.setSess v) := engineSound_of_eq heng rfl rfl rfl rfl
  cases c with
  | run _ u e => exact coreSound_finishCommand (engineSound_runBurst (hset .running) e)
  | step _ u r e =>
    exact coreSound_finishCommand (engineSound_emitResult r (engineSound_engineStep (hset .stepping) e))
  | halt => exact ⟨hset .halted, .inr rfl⟩
  | inspect => exact coreSound_finishCommand (hset .inspecting)
  | invalid => exact ⟨engineSound_of_eq heng rfl rfl rfl rfl, hsess⟩

/-- Every transaction that happens leaves a sound core. -/
theorem coreSound_transact {h : Handlers} {i : Input} {s t : State} {r : PortResult} (hs : coreSound s)
    (e : transact h i s = .next (t, r)) : coreSound t := by
  obtain ⟨-, c⟩ := transact_cases e
  have ⟨heng, hsess⟩ := hs
  have ⟨_, hqueue, _, _⟩ := heng
  cases c with
  | line _ _ c => exact coreSound_of_lineCase hs c
  | endOfInput => exact ⟨engineSound_of_eq heng rfl rfl rfl rfl, .inr rfl⟩
  | queueFull => exact hs
  | enqueued _ _ _ q hq => exact ⟨engineSound_setQueue heng (enqueue_sound hqueue hq), hsess⟩
  | queueEmpty => exact hs
  | dequeued _ q hq => exact ⟨engineSound_setQueue heng (dequeue_sound hqueue hq), hsess⟩
  | delivered _ irq => exact ⟨engineSound_deliver irq heng, hsess⟩
  | stored _ b ha => exact ⟨engineSound_memWrite b heng ha, hsess⟩

/-- The model's own fields, the inputs offered and the last result, are no part of the invariant. -/
theorem coreSound_setInputs {s : State} (l : List Input) (hs : coreSound s) : coreSound (s.setInputs l) := hs

theorem coreSound_setResult {s : State} (r : PortResult) (hs : coreSound s) : coreSound (s.setResult r) := hs

/-! ## That every operation answers -/

/-- R10 leaves room for any instruction at an address of the store: what starts inside it and is no longer than MAX_LEN
ends inside the address space. -/
theorem lt_addrSpace_of_lt_storeLen {c : Config} (hc : c.wf) {a n : Nat} (ha : a < c.storeLen) (hn : n ≤ c.maxLen) :
    a + n < addrSpace := by
  obtain ⟨-, -, -, hroom, -, -⟩ := hc
  omega

/-- An advance past the address space stops: no rule wraps a pc (R11; log entry 10). -/
theorem advancePc_of_le {s : State} {n : Nat} (hpast : addrSpace ≤ s.pc.toNat + n) :
    advancePc s n = .fault .pcPastAddressSpace := if_neg (Nat.not_lt.2 hpast)

/-- An advance by at most MAX_LEN from an address of the store answers. -/
theorem advancePc_answers {s : State} {n : Nat} (hc : s.cfg.wf) (hl : s.pc.toNat < s.cfg.storeLen)
    (hn : n ≤ s.cfg.maxLen) : ∃ t, advancePc s n = .next t :=
  ⟨_, advancePc_of_lt (lt_addrSpace_of_lt_storeLen hc hl hn)⟩

/-- A table entry that is no longer than MAX_LEN runs from every address of the store. -/
theorem runEntry_answers {h : Handlers} {op : Byte} {e : TableEntry} {s : State} (hc : s.cfg.wf)
    (hl : s.pc.toNat < s.cfg.storeLen) (hn : entryLen e ≤ s.cfg.maxLen) : ∃ t, runEntry h op e s = .next t := by
  cases e with
  | instr i => cases i with | nop => exact advancePc_answers hc hl hn
  | extension len => exact advancePc_answers (s := applyHandler (h op) (readOperands s len) s) hc hl hn

/-- Phases 1 to 4 answer in every well-formed configuration, wherever pc is. -/
theorem fetchAndExecute_answers (h : Handlers) {s : State} (hc : s.cfg.wf) :
    ∃ t r, fetchAndExecute h s = .next (t, r) := by
  unfold fetchAndExecute
  split
  · exact ⟨_, _, rfl⟩
  · next hl =>
    have hl' : s.pc.toNat < s.cfg.storeLen := by omega
    split
    · have ⟨_, _, hlen, _⟩ := hc
      obtain ⟨t, ht⟩ := advancePc_answers (n := unknownSkip) hc hl' hlen
      exact ⟨t, _, by rw [ht, andThen_next]⟩
    · next e hd =>
      split
      · exact ⟨_, _, rfl⟩
      · obtain ⟨t, ht⟩ := runEntry_answers (h := h) (op := fetchOpcode s) hc hl' (entryLen_of_decodeTable hc hd).2
        exact ⟨t, _, by rw [ht, andThen_next]⟩

theorem engineStep_answers (h : Handlers) {s : State} (hc : s.cfg.wf) : ∃ t r, engineStep h s = .next (t, r) := by
  unfold engineStep
  split
  · exact ⟨_, _, rfl⟩
  · exact fetchAndExecute_answers h hc

/-- A burst of any length answers from every sound state, since each of its engine steps does and leaves one. -/
theorem runBurst_answers_of_sound (h : Handlers) (n : Nat) {s : State} (hs : engineSound s) :
    ∃ t, runBurst h n s = .next t := by
  refine runBurst_answers (P := engineSound) (fun v hv => ?_) n hs
  obtain ⟨t, r, e⟩ := engineStep_answers h hv.1
  exact ⟨t, r, e, engineSound_emitResult r (engineSound_engineStep hv e)⟩

/-- Every operator's line has an answer: no command stops. -/
theorem runLine_answers (h : Handlers) (text : List Byte) {s : State} (hs : engineSound s) :
    ∃ t, runLine h text s = .next t := by
  unfold runLine
  split
  · have hrun : engineSound (s.setSess .running) := engineSound_of_eq hs rfl rfl rfl rfl
    obtain ⟨u, hu⟩ := runBurst_answers_of_sound h s.cfg.burst hrun
    exact ⟨_, commandRun_eq_next.2 ⟨u, hu, rfl⟩⟩
  · obtain ⟨u, r, hu⟩ := engineStep_answers h (s := s.setSess .stepping) hs.1
    exact ⟨_, commandStep_eq_next.2 ⟨u, r, hu, rfl⟩⟩
  · exact ⟨_, rfl⟩
  · exact ⟨_, rfl⟩
  · exact ⟨_, rfl⟩

/-- A record whose kind is not 3 comes in as an interrupt (R21). -/
theorem exists_recordOf {raw : RawInterrupt} (hk : raw.kind ≠ 3) : ∃ irq, recordOf raw = some irq :=
  Option.ne_none_iff_exists'.1 fun hn => hk (recordOf_eq_none.1 hn)

/-! ## Which inputs have a transaction -/

/-- Which input a state accepts does not hang on the inputs offered after it. -/
theorem accepts_setInputs {s : State} {l : List Input} {i : Input} : accepts (s.setInputs l) i ↔ accepts s i := by
  cases i <;> rfl

/-- An accepted input is one of P1 to P6, in an idle session. -/
theorem sess_of_accepts {s : State} {i : Input} (ha : accepts s i) : s.sess = .idle := by
  cases i with
  | construct => exact ha.elim
  | line | endOfInput | dequeue => exact ha
  | enqueue | deliver | storeWrite => exact ha.1

/-- A sound core answers every input that it accepts. -/
theorem transact_answers {h : Handlers} {i : Input} {s : State} (hs : engineSound s) (ha : accepts s i) :
    ∃ t r, transact h i s = .next (t, r) := by
  have hidle := sess_of_accepts ha
  cases i with
  | construct => exact ha.elim
  | line text =>
    obtain ⟨t, ht⟩ := runLine_answers h text hs
    exact ⟨t, .nothing, by simp [transact, whenIdle_of_idle hidle, portLine, ht]⟩
  | endOfInput => exact ⟨_, _, whenIdle_of_idle hidle _⟩
  | enqueue raw =>
    obtain ⟨irq, hr⟩ := exists_recordOf ha.2
    simp only [transact, whenIdle_of_idle hidle, portEnqueue, hr]
    split <;> exact ⟨_, _, rfl⟩
  | dequeue =>
    simp only [transact, whenIdle_of_idle hidle, portDequeue]
    split <;> exact ⟨_, _, rfl⟩
  | deliver raw =>
    obtain ⟨irq, hr⟩ := exists_recordOf ha.2
    exact ⟨deliver irq s, .ok, by simp only [transact, whenIdle_of_idle hidle, portDeliver, hr]⟩
  | storeWrite a b =>
    exact ⟨memWrite s a b, .ok, by simp only [transact, whenIdle_of_idle hidle, portStoreWrite, if_pos ha.2]⟩

/-- A port refuses every input that the state does not accept: P0 on a core that exists, and P1 to P6 in a session that is
not idle, on kind 3, or outside the store. -/
theorem transact_refused {h : Handlers} {i : Input} {s : State} (ha : ¬ accepts s i) :
    ∃ why, transact h i s = .refused why := by
  by_cases hidle : s.sess = .idle
  · cases i with
    | construct => exact ⟨_, rfl⟩
    | line | endOfInput | dequeue => exact absurd hidle ha
    | enqueue raw =>
      have hn : recordOf raw = none := recordOf_eq_none.2 (by simpa [accepts, hidle] using ha)
      exact ⟨.noSuchKind, by simp only [transact, whenIdle_of_idle hidle, portEnqueue, hn]⟩
    | deliver raw =>
      have hn : recordOf raw = none := recordOf_eq_none.2 (by simpa [accepts, hidle] using ha)
      exact ⟨.noSuchKind, by simp only [transact, whenIdle_of_idle hidle, portDeliver, hn]⟩
    | storeWrite a b =>
      have hout : ¬ a < s.cfg.storeLen := fun hlt => ha ⟨hidle, hlt⟩
      exact ⟨.addressOutsideStore, by simp only [transact, whenIdle_of_idle hidle, portStoreWrite, if_neg hout]⟩
  · cases i with
    | construct => exact ⟨_, rfl⟩
    | _ => exact ⟨_, whenIdle_of_not_idle hidle _⟩

/-! ## The machine's step -/

/-- With no input the core waits as it is. -/
theorem offerNextInput_nil (h : Handlers) {s : State} (hi : s.inputs = []) : offerNextInput h s = .next s := by
  simp only [offerNextInput, hi]

/-- The step of a transaction that answers: its state, with its result for the caller. -/
theorem offerNextInput_of_next {h : Handlers} {s t : State} {i : Input} {rest : List Input} {r : PortResult}
    (hi : s.inputs = i :: rest) (e : transact h i (s.setInputs rest) = .next (t, r)) :
    offerNextInput h s = .next (t.setResult r) := by
  simp only [offerNextInput, hi, e]

/-- The step of a refused input: it is withdrawn, and its caller sees the refusal (log entry 6). -/
theorem offerNextInput_of_refused {h : Handlers} {s : State} {i : Input} {rest : List Input} {why : Refusal}
    (hi : s.inputs = i :: rest) (e : transact h i (s.setInputs rest) = .refused why) :
    offerNextInput h s = .next ((s.setInputs rest).setResult (.refused why)) := by
  simp only [offerNextInput, hi, e]

/-! ## The obligations -/

/-- Settles O4: the step waits, performs a transaction, which keeps soundness, or withdraws a refused input. -/
theorem everyStepKeepsTheCoreSound : Obligations.EveryStepKeepsTheCoreSound := by
  intro s t hs e
  obtain ⟨-, rfl⟩ | ⟨i, rest, u, r, -, hu, rfl⟩ | ⟨i, rest, why, -, -, rfl⟩ := offerNextInput_cases e
  · exact hs
  · exact coreSound_setResult r (coreSound_transact (coreSound_setInputs rest hs) hu)
  · exact coreSound_setResult _ (coreSound_setInputs rest hs)

/-- Settles O6: each port answers the inputs that the state accepts, and refuses any other for a reason it names. -/
theorem transactionsAreTotalOnAcceptedInputs : Obligations.TransactionsAreTotalOnAcceptedInputs :=
  fun _ _ _ hs => ⟨transact_answers hs.1, transact_refused⟩

/-- Settles O5: with nothing offered the core waits, an accepted input is performed, and any other is withdrawn. -/
theorem soundCoreAlwaysSteps : Obligations.SoundCoreAlwaysSteps := by
  intro s hs
  cases hi : s.inputs with
  | nil => exact ⟨s, offerNextInput_nil _ hi⟩
  | cons i rest =>
    by_cases ha : accepts (s.setInputs rest) i
    · obtain ⟨t, r, e⟩ := transact_answers (coreSound_setInputs rest hs).1 ha
      exact ⟨_, offerNextInput_of_next hi e⟩
    · obtain ⟨why, e⟩ := transact_refused ha
      exact ⟨_, offerNextInput_of_refused hi e⟩

/-- Settles O57: the step is the transaction's; a sound core has one for an accepted input, and it takes no other. -/
theorem stepPerformsTheOfferedTransaction : Obligations.StepPerformsTheOfferedTransaction := by
  refine ⟨fun s t i rest r hi e => offerNextInput_of_next hi e, fun s i rest hs hi ha => ?_⟩
  obtain ⟨t, r, e⟩ := transact_answers (coreSound_setInputs rest hs).1 (accepts_setInputs.2 ha)
  exact ⟨t, r, e, offerNextInput_of_next hi e, transact_inputs e⟩

/-- Settles O58: the lookup goes down the list and stops at the first entry of the opcode. -/
theorem extensionLookupTakesTheFirstEntry : Obligations.ExtensionLookupTakesTheFirstEntry := by
  refine fun table op => ⟨extLength_eq_none, fun len => ⟨exists_first_of_extLength, ?_⟩⟩
  rintro ⟨before, e, after, rfl, hb, rfl, rfl⟩
  exact extLength_append_cons hb

/-- Settles O17: NOP is the pc advance by one, which tests the exact sum. -/
theorem nopStopsOnlyPastTheAddressSpace : Obligations.NopStopsOnlyPastTheAddressSpace :=
  fun _ => ⟨fun hpast => advancePc_of_le hpast, fun hroom => ⟨_, advancePc_of_lt hroom⟩⟩

end Machine

end Sys2Proof

/-! # State: what no transaction changes, what the host's ports change, construction, and the ring of slots

A property of states that every operation of the machine keeps, the step keeps (`KeptByOperations`): the configuration
and the first part of the output are two such. The ring of slots is read as the list of its entries, oldest first. -/

namespace Sys2Proof.Machine

/-! ## What the engine step leaves alone, and what the whole step keeps -/

/-- An engine step writes pc, the general registers, the flags, `pend` and the queue's head, and no more (R68). -/
theorem engineStep_frame {h : Handlers} {s t : State} {r : StepResult} (e : engineStep h s = .next (t, r)) :
    t = { s with pc := t.pc, x := t.x, flags := t.flags, pend := t.pend,
                 queue := { s.queue with head := t.queue.head } } := by
  cases engineStep_cases e with
  | delivered | outOfBounds | unknown | extension => rfl
  | instr _ _ _ _ _ _ ht => obtain ⟨-, -, rfl⟩ := exec_eq_next ht; rfl

theorem engineStep_cfg {h : Handlers} {s t : State} {r : StepResult} (e : engineStep h s = .next (t, r)) :
    t.cfg = s.cfg := by rw [engineStep_frame e]

/-- A property of states that each operation a transaction is made of keeps. -/
structure KeptByOperations (h : Handlers) (P : State → Prop) : Prop where
  engineStep : ∀ {s t : State} {r : StepResult}, P s → engineStep h s = .next (t, r) → P t
  deliver : ∀ (irq : Interrupt) {s : State}, P s → P (deliver irq s)
  emit : ∀ (e : Event) {s : State}, P s → P (s.emit e)
  setSess : ∀ (v : SessionState) {s : State}, P s → P (s.setSess v)
  setQueue : ∀ (q : Queue) {s : State}, P s → P (s.setQueue q)
  memWrite : ∀ (a : Nat) (b : Byte) {s : State}, P s → P (memWrite s a b)
  setInputs : ∀ (l : List Input) {s : State}, P s → P (s.setInputs l)
  setResult : ∀ (r : PortResult) {s : State}, P s → P (s.setResult r)

namespace KeptByOperations

variable {h : Handlers} {P : State → Prop} {s t : State}

theorem emitResult (k : KeptByOperations h P) (r : StepResult) (hs : P s) : P (emitResult r s) := by
  cases r with
  | ok | delivered => exact hs
  | outOfBoundsFetch | unknownOpcode => exact k.emit _ hs

theorem finishCommand (k : KeptByOperations h P) (hs : P s) : P (finishCommand s) := k.setSess _ (k.emit _ hs)

theorem runBurst (k : KeptByOperations h P) {n : Nat} (hs : P s) (e : runBurst h n s = .next t) : P t :=
  runBurst_keeps (fun _ _ r hu hstep => k.emitResult r (k.engineStep hu hstep)) n hs e

theorem lineCase (k : KeptByOperations h P) {text : List Byte} (hs : P s) (c : LineCase h text s t) : P t := by
  cases c with
  | run _ _ e => exact k.finishCommand (k.runBurst (k.setSess .running hs) e)
  | step _ _ r e => exact k.finishCommand (k.emitResult r (k.engineStep (k.setSess .stepping hs) e))
  | halt => exact k.setSess .halted hs
  | inspect => exact k.finishCommand (k.setSess .inspecting hs)
  | invalid => exact k.emit _ hs

theorem transact (k : KeptByOperations h P) {i : Input} {r : PortResult} (hs : P s)
    (e : transact h i s = .next (t, r)) : P t := by
  obtain ⟨-, c⟩ := transact_cases e
  cases c with
  | line _ _ c => exact k.lineCase hs c
  | endOfInput => exact k.setSess .halted hs
  | queueFull | queueEmpty => exact hs
  | enqueued _ _ _ q | dequeued _ q => exact k.setQueue q hs
  | delivered _ irq => exact k.deliver irq hs
  | stored a b => exact k.memWrite a b hs

theorem offerNextInput (k : KeptByOperations h P) (hs : P s) (e : offerNextInput h s = .next t) : P t := by
  obtain ⟨-, rfl⟩ | ⟨i, rest, u, r, -, hu, rfl⟩ | ⟨i, rest, why, -, -, rfl⟩ := offerNextInput_cases e
  · exact hs
  · exact k.setResult r (k.transact (k.setInputs rest hs) hu)
  · exact k.setResult _ (k.setInputs rest hs)

end KeptByOperations

/-- No operation writes the configuration. -/
theorem cfg_keptByOperations (h : Handlers) (c : Config) : KeptByOperations h (·.cfg = c) where
  engineStep hs e := (engineStep_cfg e).trans hs
  deliver _ _ hs := hs
  emit _ _ hs := hs
  setSess _ _ hs := hs
  setQueue _ _ hs := hs
  memWrite _ _ _ hs := hs
  setInputs _ _ hs := hs
  setResult _ _ hs := hs

/-- `emit` appends to the output stream, and no other operation writes it. -/
theorem output_prefix_keptByOperations (h : Handlers) (out : List Event) : KeptByOperations h (out <+: ·.output) where
  engineStep hs e := (engineStep_sess_output e).2 ▸ hs
  deliver _ _ hs := hs
  emit e _ hs := hs.trans (List.prefix_append _ [e])
  setSess _ _ hs := hs
  setQueue _ _ hs := hs
  memWrite _ _ _ hs := hs
  setInputs _ _ hs := hs
  setResult _ _ hs := hs

/-! ## Construction and the ports that carry an interrupt -/

/-- P0 answers a well-formed configuration and an image in the canonical form inside the store. -/
theorem construct_answers (slots : Nat → Interrupt) {cfg : Config} {image : Memory} (hcfg : cfg.wf)
    (himage : Memory.wf image ∧ ∀ c ∈ image, c.1 < cfg.storeLen) :
    construct slots cfg image = .next
      { cfg := cfg, x := Vector.replicate 8 0, pc := 0, flags := 0, pend := false,
        queue := ⟨(List.range cfg.queueCap).map slots, 0, 0⟩, mem := image, sess := .idle, output := [],
        inputs := [], lastResult := .nothing } := by
  unfold construct
  rw [if_neg (not_not.2 hcfg), if_neg (not_not.2 himage)]

theorem construct_of_not_wf (slots : Nat → Interrupt) {cfg : Config} (image : Memory) (hcfg : ¬ cfg.wf) :
    construct slots cfg image = .refused .illFormedConfiguration := if_pos hcfg

theorem portEnqueue_kind_three {raw : RawInterrupt} (s : State) (hk : raw.kind = 3) :
    portEnqueue raw s = .refused .noSuchKind := by
  unfold portEnqueue
  rw [recordOf_eq_none.2 hk]

theorem portDeliver_kind_three {raw : RawInterrupt} (s : State) (hk : raw.kind = 3) :
    portDeliver raw s = .refused .noSuchKind := by
  unfold portDeliver
  rw [recordOf_eq_none.2 hk]

/-! ## The ring of slots as a list -/

theorem enqueue_eq_none {cap : Nat} {irq : Interrupt} {q : Queue} :
    enqueue cap irq q = none ↔ queueCount cap q = cap - 1 := by
  unfold enqueue
  split <;> simp_all

theorem dequeue_eq_none {cap : Nat} {q : Queue} : dequeue cap q = none ↔ q.head = q.tail := by
  unfold dequeue
  split <;> simp_all

@[simp] theorem length_queueEntries (cap : Nat) (q : Queue) : (queueEntries cap q).length = queueCount cap q := by
  simp [queueEntries]

section

variable {cap : Nat} {q : Queue} (hq : queueSound cap q)

include hq

theorem queueCount_lt : queueCount cap q < cap := Nat.mod_lt _ (by omega)

/-- The ring is empty exactly where its indices meet (R24). -/
theorem queueCount_eq_zero : queueCount cap q = 0 ↔ q.head = q.tail := by
  have ⟨_, hhead, htail⟩ := hq
  rw [queueCount_eq hq]
  split <;> omega

/-- The count is the way from head to tail round the ring. -/
theorem head_add_queueCount_mod : (q.head + queueCount cap q) % cap = q.tail := by
  have ⟨_, hhead, htail⟩ := hq
  rw [queueCount_eq hq]
  split
  · rw [Nat.add_sub_cancel' ‹_›, Nat.mod_eq_of_lt htail]
  · rw [show q.head + (q.tail + cap - q.head) = q.tail + cap by omega, Nat.add_mod_right, Nat.mod_eq_of_lt htail]

/-- No stored entry is in the slot at tail. -/
theorem head_add_mod_ne_tail {k : Nat} (hk : k < queueCount cap q) : (q.head + k) % cap ≠ q.tail := by
  intro heq
  have hmod : q.head + k ≡ q.head + queueCount cap q [MOD cap] := heq.trans (head_add_queueCount_mod hq).symm
  have hcount := queueCount_lt hq
  exact hk.ne (Nat.ModEq.eq_of_lt_of_lt (Nat.ModEq.add_left_cancel' _ hmod) (hk.trans hcount) hcount)

/-- Enqueue writes the slot that comes after the stored entries, and none of theirs. -/
theorem queueEntries_enqueue {irq : Interrupt} {q' : Queue} (e : enqueue cap irq q = some q') :
    queueEntries cap q' = queueEntries cap q ++ [irq] := by
  have hcount := enqueue_count hq e
  obtain ⟨-, rfl⟩ := enqueue_eq_some.1 e
  have hslots : q.tail < q.slots.length := hq.1 ▸ hq.2.2
  unfold queueEntries
  rw [hcount, List.range_succ, List.map_append]
  congr 1
  · refine List.map_congr_left fun k hk => ?_
    have hne := head_add_mod_ne_tail hq (List.mem_range.1 hk)
    simp [slotAt, List.getElem?_set_ne hne.symm]
  · simp [slotAt, head_add_queueCount_mod hq, hslots]

/-- Dequeue takes the entry at head, and the entries after it keep their slots. -/
theorem queueEntries_dequeue {irq : Interrupt} {q' : Queue} (e : dequeue cap q = some (irq, q')) :
    queueEntries cap q = irq :: queueEntries cap q' := by
  have hcount := dequeue_count hq e
  obtain ⟨-, rfl, rfl⟩ := dequeue_eq_some.1 e
  unfold queueEntries
  rw [hcount, List.range_succ_eq_map, List.map_cons, List.map_map, Nat.add_zero, Nat.mod_eq_of_lt hq.2.1]
  congr 1
  refine List.map_congr_left fun k _ => ?_
  simp only [Function.comp_apply, slotAt, Nat.mod_add_mod]
  rw [Nat.add_assoc, Nat.add_comm 1 k]

end

/-! ## The obligations of the state's family -/

/-- Settles O7: a state refuses what it does not accept, and the inputs still offered do not count. -/
theorem refusedInputLeavesTheCoreAlone : Obligations.RefusedInputLeavesTheCoreAlone := by
  intro s i rest hi ha
  obtain ⟨why, e⟩ := transact_refused (accepts_setInputs.not.2 ha)
  exact ⟨why, offerNextInput_of_refused hi e⟩

/-- Settles O9: every operation keeps the configuration, so the step does; the rest is read from it. -/
theorem configurationNeverChanges : Obligations.ConfigurationNeverChanges := by
  intro s t e
  have hcfg : t.cfg = s.cfg := (cfg_keptByOperations _ s.cfg).offerNextInput rfl e
  exact ⟨hcfg, by rw [hcfg], fun op => by rw [hcfg]⟩

/-- Settles O10: every operation keeps what the output begins with, so the step does. -/
theorem outputOnlyGrows : Obligations.OutputOnlyGrows :=
  fun _ _ e => (output_prefix_keptByOperations _ _).offerNextInput (List.prefix_refl _) e

/-- Settles O11: of the transactions that are not a line's, a delivery writes pc and `pend`, and the others write
neither these nor a register. -/
theorem hostPortsLeaveTheRegistersAlone : Obligations.HostPortsLeaveTheRegistersAlone := by
  intro h i s t r hline e
  obtain ⟨-, c⟩ := transact_cases e
  cases c with
  | line text => exact absurd rfl (hline text)
  | delivered raw => exact ⟨fun _ => rfl, rfl, fun hd => absurd rfl (hd raw)⟩
  | endOfInput | queueFull | enqueued | queueEmpty | dequeued | stored =>
    exact ⟨fun _ => rfl, rfl, fun _ => ⟨rfl, rfl⟩⟩

/-- Settles O35: the entries are the slots from head on, as many as the count, and the slot after them is the one at
tail. -/
theorem queueIsABoundedList : Obligations.QueueIsABoundedList := by
  intro cap q hq
  refine ⟨length_queueEntries cap q, Nat.le_sub_one_of_lt (queueCount_lt hq), fun irq => ?_,
    fun _ _ => queueEntries_enqueue hq, ?_, fun _ _ => queueEntries_dequeue hq⟩
  · rw [enqueue_eq_none, length_queueEntries]
  · rw [dequeue_eq_none, ← queueCount_eq_zero hq, ← length_queueEntries, List.length_eq_zero_iff]

/-- Settles O1: the constructed state is read field by field. -/
theorem constructSetsEveryPart : Obligations.ConstructSetsEveryPart := by
  refine ⟨fun slots cfg image hcfg hwf hin => ⟨_, construct_answers slots hcfg ⟨hwf, hin⟩, rfl, fun _ => rfl,
    fun i => ?_, rfl, rfl, rfl, ?_, rfl, rfl, rfl, rfl⟩, fun slots _ image => construct_of_not_wf slots image,
    fun _ _ _ _ => rfl⟩
  · simp [readReg]
  · simp

/-- Settles O32: no interrupt stands for kind 3, and one with the same fields stands for any other record. -/
theorem kindThreeIsRefused : Obligations.KindThreeIsRefused := by
  refine ⟨fun h s raw hidle hk => ⟨?_, ?_⟩, fun raw hk => ?_⟩
  · exact (whenIdle_of_idle hidle _).trans (portEnqueue_kind_three s hk)
  · exact (whenIdle_of_idle hidle _).trans (portDeliver_kind_three s hk)
  · obtain ⟨irq, hr⟩ := exists_recordOf hk
    exact ⟨irq, hr, recordOf_eq_some hr⟩

end Sys2Proof.Machine

/-! # Store: only the host's port writes it, and the next engine step fetches what stands in it

No engine step writes the store, so no operator's line does, and of the other ports P6 alone writes it. What an engine
step without a poll does is said once for each thing the byte at pc can be: NOP, no entry, an extension entry that
fits. -/

namespace Sys2Proof.Machine

/-! ## The host's store write, and what leaves the store alone -/

/-- P6 in Idle inside the store: one write, answered Ok. -/
theorem transact_storeWrite_of_lt (h : Handlers) {s : State} {a : Nat} (b : Byte) (hidle : s.sess = .idle)
    (ha : a < s.cfg.storeLen) : transact h (.storeWrite a b) s = .next (memWrite s a b, .ok) :=
  (whenIdle_of_idle hidle _).trans (if_pos ha)

/-- P6 in Idle at L or above is refused (R42). -/
theorem transact_storeWrite_of_le (h : Handlers) {s : State} {a : Nat} (b : Byte) (hidle : s.sess = .idle)
    (ha : s.cfg.storeLen ≤ a) : transact h (.storeWrite a b) s = .refused .addressOutsideStore :=
  (whenIdle_of_idle hidle _).trans (if_neg (Nat.not_lt.2 ha))

theorem engineStep_mem {h : Handlers} {s t : State} {r : StepResult} (e : engineStep h s = .next (t, r)) :
    t.mem = s.mem := by rw [engineStep_frame e]

theorem runBurst_mem {h : Handlers} {n : Nat} {s t : State} (e : runBurst h n s = .next t) : t.mem = s.mem :=
  runBurst_keeps (P := (·.mem = s.mem))
    (fun _ _ r hu hstep => (emitResult_mem r _).trans ((engineStep_mem hstep).trans hu)) n rfl e

/-- No command that an operator's line selects writes the store. -/
theorem mem_of_lineCase {h : Handlers} {text : List Byte} {s t : State} (c : LineCase h text s t) :
    t.mem = s.mem := by
  cases c with
  | run _ u e => exact (runBurst_mem e :)
  | step _ u r e => exact (emitResult_mem r u).trans (engineStep_mem e :)
  | halt | inspect | invalid => rfl

/-- A transaction on any input but P6's leaves the store's contents as they are. -/
theorem transact_mem {h : Handlers} {i : Input} {s t : State} {r : PortResult} (hi : ∀ a b, i ≠ .storeWrite a b)
    (e : transact h i s = .next (t, r)) : t.mem = s.mem := by
  obtain ⟨-, c⟩ := transact_cases e
  cases c with
  | line _ _ c => exact mem_of_lineCase c
  | stored a b => exact absurd rfl (hi a b)
  | endOfInput | queueFull | enqueued | queueEmpty | dequeued | delivered => rfl

theorem sameStore_of_mem_eq {s t : State} (hmem : t.mem = s.mem) : sameStore s t := fun a => by
  rw [memRead, memRead, hmem]

/-! ## What an engine step without a poll does with the byte at pc -/

/-- An opcode that the extension table of a well-formed configuration lists has that entry: it is not NOP's (R10). -/
theorem decodeTable_of_extLength {c : Config} (hc : c.wf) {op : Byte} {len : Nat}
    (hl : extLength c.extTable op = some len) : decodeTable c op = some (.extension len) := by
  obtain ⟨-, -, -, -, hnop, -⟩ := hc
  obtain ⟨before, e, after, htable, -, rfl, -⟩ := exists_first_of_extLength hl
  have hmem : e ∈ c.extTable := by simp [htable]
  rw [decodeTable_of_ne c (hnop e hmem), hl, Option.map_some]

/-- The operand bytes, address by address from pc + 1 on. -/
theorem readOperands_eq (s : State) (len : Nat) :
    readOperands s len = (List.range (len - 1)).map fun k => memRead s (s.pc.toNat + 1 + k) :=
  memReadBytes_eq s _ _

/-- An advance by at most MAX_LEN from an address of the store is exact, and writes pc only. -/
theorem exists_advancePc {s : State} {n : Nat} (hc : s.cfg.wf) (hl : s.pc.toNat < s.cfg.storeLen)
    (hn : n ≤ s.cfg.maxLen) : ∃ t, advancePc s n = .next t ∧ t.pc.toNat = s.pc.toNat + n ∧ t = s.setPc t.pc :=
  have hroom := lt_addrSpace_of_lt_storeLen hc hl hn
  ⟨_, advancePc_of_lt hroom, toNat_ofNat_of_lt hroom, rfl⟩

theorem engineStep_of_noPoll (h : Handlers) {s : State} (hp : noPoll s) : engineStep h s = fetchAndExecute h s := by
  rw [engineStep, pollQueue_eq_none.2 hp]

section

variable (h : Handlers) {s : State} (hp : noPoll s) (hl : s.pc.toNat < s.cfg.storeLen)
include hp hl

/-- An entry whose bytes lie in the store runs, and the step answers Ok (R59, phase 4). -/
theorem engineStep_of_entry {e : TableEntry} (hd : decodeTable s.cfg (memRead s s.pc.toNat) = some e)
    (hfit : s.pc.toNat + entryLen e ≤ s.cfg.storeLen) :
    engineStep h s = andThen (runEntry h (memRead s s.pc.toNat) e s) fun t => .next (t, .ok) := by
  rw [engineStep_of_noPoll h hp, fetchAndExecute, if_neg (Nat.not_le.2 hl), fetchOpcode, hd]
  exact if_neg (Nat.not_lt.2 hfit)

/-- On NOP's byte the step goes one further (R63). -/
theorem engineStep_of_nop (hc : s.cfg.wf) (hop : memRead s s.pc.toNat = nopOpcode) :
    ∃ t, engineStep h s = .next (t, .ok) ∧ t.pc.toNat = s.pc.toNat + 1 ∧ t = s.setPc t.pc := by
  have ⟨_, _, hlen, _⟩ := hc
  obtain ⟨t, ht, hpc, heq⟩ := exists_advancePc (n := nopLen) hc hl hlen
  have hd : decodeTable s.cfg (memRead s s.pc.toNat) = some (.instr .nop) := by rw [hop, decodeTable_nop]
  have hrun : runEntry h (memRead s s.pc.toNat) (.instr .nop) s = .next t := ht
  exact ⟨t, by rw [engineStep_of_entry h hp hl hd hl, hrun, andThen_next], hpc, heq⟩

/-- On a byte without an entry the step reports it and goes one further (R64). -/
theorem engineStep_of_unregistered (hc : s.cfg.wf) (hd : decodeTable s.cfg (memRead s s.pc.toNat) = none) :
    ∃ t, engineStep h s = .next (t, .unknownOpcode (memRead s s.pc.toNat) s.pc) ∧
      t.pc.toNat = s.pc.toNat + 1 ∧ t = s.setPc t.pc := by
  have ⟨_, _, hlen, _⟩ := hc
  obtain ⟨t, ht, hpc, heq⟩ := exists_advancePc (n := unknownSkip) hc hl hlen
  refine ⟨t, ?_, hpc, heq⟩
  rw [engineStep_of_noPoll h hp, fetchAndExecute, if_neg (Nat.not_le.2 hl), fetchOpcode, hd, ht, andThen_next]

/-- On an extension entry that fits the step applies the handler to the operand bytes and goes its length further
(R66). -/
theorem engineStep_of_extension (hc : s.cfg.wf) {len : Nat}
    (hlen : extLength s.cfg.extTable (memRead s s.pc.toNat) = some len)
    (hfit : s.pc.toNat + len ≤ s.cfg.storeLen) :
    ∃ t, engineStep h s = .next (t, .ok) ∧ t.pc.toNat = s.pc.toNat + len ∧
      (t.x, t.flags) = h (memRead s s.pc.toNat) s.x s.flags
        ((List.range (len - 1)).map fun k => memRead s (s.pc.toNat + 1 + k)) ∧
      t = (s.setRegs t.x t.flags).setPc t.pc := by
  have hd := decodeTable_of_extLength hc hlen
  have hmax : len ≤ s.cfg.maxLen := (entryLen_of_decodeTable hc hd).2
  obtain ⟨t, ht, hpc, heq⟩ := exists_advancePc
    (s := applyHandler (h (memRead s s.pc.toNat)) (readOperands s len) s) hc hl hmax
  have hrun : runEntry h (memRead s s.pc.toNat) (.extension len) s = .next t := ht
  refine ⟨t, by rw [engineStep_of_entry h hp hl hd hfit, hrun, andThen_next], hpc, ?_, ?_⟩
  · rw [heq, ← readOperands_eq]; rfl
  · rw [heq]; rfl

end

/-! ## The obligations of the store's family -/

/-- Settles O40: P6 is one write of the store, and every other transaction leaves its contents as they are. -/
theorem onlyTheHostWritesTheStore : Obligations.OnlyTheHostWritesTheStore := by
  refine ⟨fun h s a b hs hidle => ⟨fun ha => ?_, transact_storeWrite_of_le h b hidle⟩,
    fun _ _ _ _ hidle => whenIdle_of_not_idle hidle _, fun _ _ _ _ _ hi e => sameStore_of_mem_eq (transact_mem hi e)⟩
  obtain ⟨⟨-, -, ⟨hmem, -⟩, -⟩, -⟩ := hs
  refine ⟨_, transact_storeWrite_of_lt h b hidle ha, ?_, fun k hk => ?_, rfl⟩
  · rw [memRead_memWrite hmem, if_pos rfl]
  · rw [memRead_memWrite hmem, if_neg hk]

/-- Settles O41: the write changes neither the configuration nor pc nor the queue, so the step after it fetches from the
store it left. -/
theorem storeWriteReachesTheNextFetch : Obligations.StoreWriteReachesTheNextFetch := by
  intro h s a b hs hidle hp hl ha
  obtain ⟨⟨hc, -, ⟨hmem, -⟩, -⟩, -⟩ := hs
  have hread := memRead_memWrite hmem a b
  have hat (hpc : a = s.pc.toNat) : memRead (memWrite s a b) (memWrite s a b).pc.toNat = b :=
    (hread _).trans (if_pos hpc.symm)
  refine ⟨_, transact_storeWrite_of_lt h b hidle ha, hread, fun hpc hb => ?_, fun hpc hd => ?_,
    fun len hlen hfit => ?_⟩
  · exact engineStep_of_nop h hp hl hc ((hat hpc).trans hb)
  · have hstep := engineStep_of_unregistered h (s := memWrite s a b) hp hl hc (by rw [hat hpc]; exact hd)
    rwa [hat hpc] at hstep
  · obtain ⟨u, hstep, hpc, hregs, -⟩ := engineStep_of_extension h (s := memWrite s a b) hp hl hc hlen hfit
    exact ⟨u, hstep, hpc, hregs⟩

end Sys2Proof.Machine

/-! # Encoding: the bytes of an instruction, and what the decode table holds for each opcode

The encoder inverts the decoder, which reads the opcode byte alone (30_encoding.md R49). The decode table is NOP's entry
and the extension table's lookup; what a step does on an opcode without an entry stands above. -/

namespace Sys2Proof

/-! ## The decoder and the encoder -/

theorem length_encode (i : Instr) : (encode i).length = instrLen i := by
  cases i with
  | nop => exact Laws.Encoding.nop.1

theorem decode_encode_append (i : Instr) (rest : List Byte) : decode (encode i ++ rest) = .ok (i, rest) := by
  cases i with
  | nop => exact Laws.Encoding.nop.2 rest

/-- The bytes that decode to an instruction are its encoding and the rest. -/
theorem eq_encode_append_of_decode {bytes rest : List Byte} {i : Instr} (h : decode bytes = .ok (i, rest)) :
    bytes = encode i ++ rest := by
  obtain ⟨rfl, rfl⟩ := decode_eq_ok h
  rfl

/-! ## The decode table -/

/-- An entry that is the only one of its opcode is the one the lookup finds. -/
theorem extLength_of_forall_eq {table : List ExtEntry} {e : ExtEntry} (he : e ∈ table)
    (honly : ∀ e' ∈ table, e'.opcode = e.opcode → e' = e) : extLength table e.opcode = some e.len := by
  cases hl : extLength table e.opcode with
  | none => exact absurd rfl (extLength_eq_none.1 hl e he)
  | some len =>
    obtain ⟨before, first, after, rfl, -, hop, hlen⟩ := exists_first_of_extLength hl
    obtain rfl := honly first (by simp) hop
    rw [hlen]

/-- An opcode is unregistered exactly where it is not NOP's and no extension entry is its own (R52, R53). -/
theorem decodeTable_eq_none {c : Config} {op : Byte} :
    decodeTable c op = none ↔ op ≠ nopOpcode ∧ ∀ e ∈ c.extTable, e.opcode ≠ op := by
  by_cases hop : op = nopOpcode
  · simp [hop]
  · rw [decodeTable_of_ne c hop, Option.map_eq_none_iff, extLength_eq_none]
    simp [hop]

namespace Machine

/-! ## The obligations of the encoding's family -/

/-- Settles O21: the step's answer on an unregistered byte, and a base table has no extension entry to register one. -/
theorem unknownOpcodeSkipsOneByte : Obligations.UnknownOpcodeSkipsOneByte := by
  refine ⟨fun h s hc hp hl hd => engineStep_of_unregistered h hp hl hc hd, fun c hbase op => ?_⟩
  have hnone : ∀ e ∈ c.extTable, e.opcode ≠ op := by simp [hbase]
  exact decodeTable_eq_none.trans (and_iff_left hnone)

/-- Settles O12: each direction is one of the two laws of the encoder. -/
theorem decodeAndEncodeAgree : Obligations.DecodeAndEncodeAgree := by
  refine fun i bytes rest _ => ⟨⟨eq_encode_append_of_decode, ?_⟩, length_encode i⟩
  rintro rfl
  exact decode_encode_append i rest

/-- Settles O13: 0x90 is NOP's byte, and each of the others is not. -/
theorem opcodeWordsDecodeAsTheTableSays : Obligations.OpcodeWordsDecodeAsTheTableSays :=
  ⟨decode_nop [], decode_nop [0xCC], decode_of_ne (by decide) [], decode_of_ne (by decide) [],
    decode_of_ne (by decide) [], decode_of_ne (by decide) [], rfl, rfl⟩

/-- Settles O14: NOP's entry, then an extension entry found, none found, none listed, and the only one listed. -/
theorem decodeTableHoldsNopAndTheExtensions : Obligations.DecodeTableHoldsNopAndTheExtensions := by
  intro c hc
  refine ⟨decodeTable_nop c, rfl, fun op len _ hl => decodeTable_of_extLength hc hl, fun op hop hl => ?_,
    fun op hop => ?_, fun e he honly => ?_, fun op e hd => entryLen_of_decodeTable hc hd, fun s t ht => ?_⟩
  · exact decodeTable_eq_none.2 ⟨hop, extLength_eq_none.1 hl⟩
  · exact decodeTable_eq_none.trans (and_iff_right hop)
  · exact decodeTable_of_extLength hc (extLength_of_forall_eq he honly)
  · obtain ⟨-, -, rfl⟩ := exec_eq_next ht
    exact ⟨rfl, rfl⟩

end Machine

end Sys2Proof

/-! # Engine step: what each phase answers, and what every step leaves alone

`EngineCase` lists the answers of an engine step; that each listed answer is the step's makes the list exact, and then a
claim about one step is read from its case. NOP is run by the engine, by a burst and by the machine's step alike. -/

namespace Sys2Proof.Machine

/-! ## The engine step is exactly its cases -/

/-- Each of the listed answers is the step's. -/
theorem engineStep_of_case {h : Handlers} {s t : State} {r : StepResult} (c : EngineCase h s t r) :
    engineStep h s = .next (t, r) := by
  cases c with
  | delivered hp hq => rw [engineStep, pollQueue_eq_some.2 ⟨hp, hq, rfl, rfl⟩]
  | outOfBounds hp hl =>
    rw [engineStep_of_noPoll h (pollQueue_eq_none.1 hp), fetchAndExecute]
    obtain hend | ⟨e, hd, hb⟩ := hl
    · exact if_pos hend
    · rw [hd]
      exact ite_eq_left_iff.2 fun _ => if_pos hb
  | unknown hp hl hd hr =>
    rw [engineStep_of_noPoll h (pollQueue_eq_none.1 hp), fetchAndExecute, if_neg (Nat.not_le.2 hl), hd,
      advancePc_of_lt hr, andThen_next]
  | instr hp hl i hd hb t ht =>
    rw [engineStep_of_entry h (pollQueue_eq_none.1 hp) hl hd hb, runEntry, ht, andThen_next]
  | extension hp hl len hd hb hr =>
    have hrun : runEntry h (memRead s s.pc.toNat) (.extension len) s = .next _ := advancePc_of_lt hr
    rw [engineStep_of_entry h (pollQueue_eq_none.1 hp) hl hd hb, hrun, andThen_next]
    rfl

/-- At or past L nothing is fetched (R62). -/
theorem engineStep_of_storeLen_le (h : Handlers) {s : State} (hp : noPoll s) (hl : s.cfg.storeLen ≤ s.pc.toNat) :
    engineStep h s = .next (s, .outOfBoundsFetch s.pc) :=
  engineStep_of_case (.outOfBounds (pollQueue_eq_none.2 hp) (.inl hl))

/-- An opcode whose entry is an extension's is listed in the extension table. -/
theorem extLength_of_decodeTable {c : Config} {op : Byte} {len : Nat}
    (hd : decodeTable c op = some (.extension len)) : extLength c.extTable op = some len := by
  by_cases hop : op = nopOpcode
  · rw [hop, decodeTable_nop] at hd; cases hd
  · rw [decodeTable_of_ne c hop] at hd
    obtain ⟨_, hl, heq⟩ := Option.map_eq_some_iff.1 hd
    cases heq
    exact hl

/-! ## What a step leaves alone -/

/-- Only an extension entry's handler writes the general registers and the flags (R67). -/
theorem engineStep_regs_of_extLength_eq_none {h : Handlers} {s t : State} {r : StepResult}
    (e : engineStep h s = .next (t, r)) (hn : extLength s.cfg.extTable (memRead s s.pc.toNat) = none) :
    t.x = s.x ∧ t.flags = s.flags := by
  cases engineStep_cases e with
  | delivered | outOfBounds | unknown => exact ⟨rfl, rfl⟩
  | instr _ _ _ _ _ _ ht => obtain ⟨-, -, rfl⟩ := exec_eq_next ht; exact ⟨rfl, rfl⟩
  | extension _ _ len hd =>
    have hlisted : extLength s.cfg.extTable (memRead s s.pc.toNat) = some len := extLength_of_decodeTable hd
    rw [hn] at hlisted
    cases hlisted

/-- In the base hardware every operation keeps the registers and the flags 0: no entry has a handler to write them. -/
theorem base_registersZero_keptByOperations (h : Handlers) :
    KeptByOperations h fun s => baseTable s ∧ registersZero s where
  engineStep := by
    rintro s t r ⟨hbase, hx, hflags⟩ e
    obtain ⟨hx', hflags'⟩ := engineStep_regs_of_extLength_eq_none e (by rw [hbase]; rfl)
    refine ⟨by rw [baseTable, engineStep_cfg e, hbase], fun i => ?_, hflags'.trans hflags⟩
    rw [hx', hx i]
  deliver _ _ hs := hs
  emit _ _ hs := hs
  setSess _ _ hs := hs
  setQueue _ _ hs := hs
  memWrite _ _ _ hs := hs
  setInputs _ _ hs := hs
  setResult _ _ hs := hs

/-- Without the poll a step with another queue is the same case, with that queue left in place (R68). -/
theorem EngineCase.setQueue {h : Handlers} {s t : State} {r : StepResult} (hoff : s.cfg.interruptPoll = false)
    (c : EngineCase h s t r) (q : Queue) : EngineCase h (s.setQueue q) (t.setQueue q) r := by
  have hp : pollQueue (s.setQueue q) = none := pollQueue_eq_none.2 (.inl hoff)
  have hops (len : Nat) : readOperands (s.setQueue q) len = readOperands s len := by
    simp only [readOperands_eq, memRead_setQueue, State.setQueue_pc]
  cases c with
  | delivered hon => rw [hoff] at hon; cases hon
  | outOfBounds _ hl => exact .outOfBounds hp hl
  | unknown _ hl hd hr => exact .unknown hp hl hd hr
  | instr _ hl i hd hb _ ht =>
    obtain ⟨rfl, hr, rfl⟩ := exec_eq_next ht
    exact .instr hp hl .nop hd hb _ (advancePc_of_lt hr)
  | extension _ hl len hd hb hr =>
    have c := EngineCase.extension (h := h) hp hl len hd hb hr
    rw [hops] at c
    exact c

theorem engineStep_setQueue {h : Handlers} {s t : State} {r : StepResult} (hoff : s.cfg.interruptPoll = false)
    (e : engineStep h s = .next (t, r)) (q : Queue) : engineStep h (s.setQueue q) = .next (t.setQueue q, r) :=
  engineStep_of_case ((engineStep_cases e).setQueue hoff q)

/-- A step that does the same with every queue leaves the queue it has. -/
theorem engineStep_queue {h : Handlers} {s t : State} {r : StepResult} (hoff : s.cfg.interruptPoll = false)
    (e : engineStep h s = .next (t, r)) : t.queue = s.queue := by
  have hsame : engineStep h s = .next (t.setQueue s.queue, r) := engineStep_setQueue hoff e s.queue
  rw [e] at hsame
  injection hsame with hpair
  rw [(Prod.mk.inj hpair).1, State.setQueue_queue]

/-! ## Where a step leaves pc -/

/-- An advance that stays in the store of a well-formed configuration is exact. -/
theorem toNat_ofNat_of_le_storeLen {c : Config} (hc : c.wf) {n : Nat} (hn : n ≤ c.storeLen) :
    (BitVec.ofNat 32 n).toNat = n := by
  obtain ⟨-, -, hmax, hroom, -, -⟩ := hc
  exact toNat_ofNat_of_lt (by omega)

/-- A step of the base hardware below L goes one further, on NOP's byte and on any other. -/
theorem engineStep_of_baseTable (h : Handlers) {s : State} (hc : s.cfg.wf) (hbase : baseTable s) (hp : noPoll s)
    (hl : s.pc.toNat < s.cfg.storeLen) :
    ∃ t r, engineStep h s = .next (t, r) ∧ t.pc.toNat = s.pc.toNat + 1 ∧ t = s.setPc t.pc := by
  by_cases hop : memRead s s.pc.toNat = nopOpcode
  · obtain ⟨t, e, ht⟩ := engineStep_of_nop h hp hl hc hop
    exact ⟨t, _, e, ht⟩
  · have hd : decodeTable s.cfg (memRead s s.pc.toNat) = none := decodeTable_eq_none.2 ⟨hop, by simp [hbase]⟩
    obtain ⟨t, e, ht⟩ := engineStep_of_unregistered h hp hl hc hd
    exact ⟨t, _, e, ht⟩

/-- A run that stands at or past L stays there. -/
theorem engineRun_of_storeLen_le (h : Handlers) (n : Nat) {s : State} (hp : noPoll s)
    (hl : s.cfg.storeLen ≤ s.pc.toNat) : engineRun h n s = .next s := by
  induction n with
  | zero => rfl
  | succ n ih => rw [engineRun, engineStep_of_storeLen_le h hp hl, andThen_next, ih]

/-- A run of the base hardware from pc ≤ L goes one further each step until it is at L (R65). -/
theorem engineRun_of_baseTable (h : Handlers) (n : Nat) {s : State} (hc : s.cfg.wf) (hbase : baseTable s)
    (hp : noPoll s) (hl : s.pc.toNat ≤ s.cfg.storeLen) :
    ∃ t, engineRun h n s = .next t ∧ t.pc.toNat = min (s.pc.toNat + n) s.cfg.storeLen ∧ t = s.setPc t.pc := by
  induction n generalizing s with
  | zero => exact ⟨s, rfl, (Nat.min_eq_left hl).symm, rfl⟩
  | succ n ih =>
    obtain hend | hlt := hl.eq_or_lt
    · exact ⟨s, engineRun_of_storeLen_le h _ hp hend.ge, by omega, rfl⟩
    · obtain ⟨u, r, e, hpc, hu⟩ := engineStep_of_baseTable h hc hbase hp hlt
      have hcfg : u.cfg = s.cfg := engineStep_cfg e
      obtain ⟨t, ht, hpc', heq⟩ := ih (s := u) (by rw [hcfg]; exact hc) (by rw [baseTable, hcfg]; exact hbase)
        (by rw [hu]; exact hp) (by rw [hpc, hcfg]; exact hlt)
      refine ⟨t, by rw [engineRun, e, andThen_next, ht], by rw [hpc', hpc, hcfg]; congr 1; omega, ?_⟩
      rw [heq, hu]; rfl

/-! ## NOP, run by the engine, by a burst and by the machine's step -/

theorem andThen_assoc {α β γ : Type} (o : Answer α) (k : α → Answer β) (l : β → Answer γ) :
    andThen (andThen o k) l = andThen o fun a => andThen (k a) l := by
  cases o <;> rfl

theorem sameRegisters_setPc (s : State) (v : Addr) : sameRegisters s (s.setPc v) := ⟨fun _ => rfl, rfl, rfl⟩

theorem sameStore_setPc (s : State) (v : Addr) : sameStore s (s.setPc v) := fun _ => rfl

/-- Bytes of the store at pc that decode to an instruction have its opcode at pc, inside the store. -/
theorem nop_of_decode_memReadBytes {s : State} {n : Nat} {i : Instr} {rest : List Byte}
    (hfit : s.pc.toNat + n ≤ s.cfg.storeLen) (hd : decode (memReadBytes s s.pc.toNat n) = .ok (i, rest)) :
    i = .nop ∧ s.pc.toNat < s.cfg.storeLen ∧ memRead s s.pc.toNat = nopOpcode := by
  obtain ⟨rfl, hbytes⟩ := decode_eq_ok hd
  cases n with
  | zero => cases hbytes
  | succ n => exact ⟨rfl, by omega, (List.cons.inj hbytes).1⟩

section

variable (h : Handlers) {s : State} (hp : noPoll s) (hl : s.pc.toNat < s.cfg.storeLen)
  (hop : memRead s s.pc.toNat = nopOpcode)
include hp hl hop

/-- The engine's step on NOP's byte is NOP, whatever the configuration. -/
theorem engineStep_eq_exec_nop : engineStep h s = andThen (exec .nop s) fun t => .next (t, .ok) := by
  have hd : decodeTable s.cfg (memRead s s.pc.toNat) = some (.instr .nop) := by rw [hop, decodeTable_nop]
  exact engineStep_of_entry h hp hl hd hl

/-- NOP does not end a burst and has nothing to report. -/
theorem runBurst_eq_exec_nop (k : Nat) : runBurst h (k + 1) s = andThen (exec .nop s) (runBurst h k) := by
  rw [runBurst, engineStep_eq_exec_nop h hp hl hop, andThen_assoc]
  rfl

/-- The command `next` on NOP's byte: NOP in Stepping, then the end of the command (R89). -/
theorem commandStep_eq_exec_nop :
    commandStep h s = andThen (exec .nop (s.setSess .stepping)) fun t => .next (finishCommand t) := by
  rw [commandStep, engineStep_eq_exec_nop h (s := s.setSess .stepping) hp hl hop, andThen_assoc]
  rfl

end

/-- A line that reads as Step is the command and returns nothing. -/
theorem transact_line_of_step (h : Handlers) {s : State} {text : List Byte} (hidle : s.sess = .idle)
    (hc : parseLine s.cfg.caseFold text = .step) :
    transact h (.line text) s = andThen (commandStep h s) fun t => .next (t, .nothing) :=
  (whenIdle_of_idle hidle _).trans (by rw [portLine, runLine, hc])

theorem offerNextInput_of_fault {h : Handlers} {s : State} {i : Input} {rest : List Input} {r : Fault}
    (hi : s.inputs = i :: rest) (e : transact h i (s.setInputs rest) = .fault r) :
    offerNextInput h s = .fault r := by
  simp only [offerNextInput, hi, e]

/-- The machine's step on a line that reads as Step, at NOP's byte. NOP goes on or stops with the fault, and is never
refused, so the step withdraws no input. -/
theorem step_eq_exec_nop {s : State} {text : List Byte} {more : List Input} (hp : noPoll s)
    (hl : s.pc.toNat < s.cfg.storeLen) (hop : memRead s s.pc.toNat = nopOpcode) (hidle : s.sess = .idle)
    (hi : s.inputs = .line text :: more) (hc : parseLine s.cfg.caseFold text = .step) :
    step s = andThen (exec .nop ((s.setInputs more).setSess .stepping)) fun t =>
      .next ((finishCommand t).setResult .nothing) := by
  have htr : transact Config.extHandlers (.line text) (s.setInputs more) =
      andThen (exec .nop ((s.setInputs more).setSess .stepping)) fun t => .next (finishCommand t, .nothing) := by
    rw [transact_line_of_step _ (s := s.setInputs more) hidle hc,
      commandStep_eq_exec_nop _ (s := s.setInputs more) hp hl hop, andThen_assoc]
    rfl
  cases hx : exec .nop ((s.setInputs more).setSess .stepping) with
  | next t => rw [hx] at htr; exact offerNextInput_of_next hi htr
  | fault r => rw [hx] at htr; exact offerNextInput_of_fault hi htr
  | refused r =>
    obtain hroom | hpast := Nat.lt_or_ge (s.pc.toNat + nopLen) addrSpace
    · cases hx.symm.trans (advancePc_of_lt hroom)
    · cases hx.symm.trans (advancePc_of_le hpast)

/-! ## The placed instruction -/

/-- A sequence of bytes written from `a` on leaves every address below `a`. -/
theorem Memory.read_writeBytes_of_lt {m : Memory} (hm : Memory.wf m) {a k : Nat} (hk : k < a) (bs : List Byte) :
    Memory.read (Memory.writeBytes m a bs) k = Memory.read m k := by
  induction bs generalizing m a with
  | nil => rfl
  | cons b bs ih =>
    rw [Memory.writeBytes, ih (Memory.write_wf hm a b) (by omega), Memory.read_write hm, if_neg (by omega)]

/-- The first byte of a sequence written at `a` is read back there. -/
theorem Memory.read_writeBytes_cons {m : Memory} (hm : Memory.wf m) (a : Nat) (b : Byte) (bs : List Byte) :
    Memory.read (Memory.writeBytes m a (b :: bs)) a = b := by
  rw [Memory.writeBytes, Memory.read_writeBytes_of_lt (Memory.write_wf hm a b) a.lt_succ_self,
    Memory.read_write hm, if_pos rfl]

/-- The placed word's low byte stands at pc. -/
theorem memRead_withFetchWord {s : State} {nbits w : Nat} (hm : Memory.wf s.mem) (hn : 8 ≤ nbits) :
    memRead (s.withFetchWord nbits w) s.pc.toNat = BitVec.ofNat 8 (w % 2 ^ nbits) := by
  obtain ⟨k, hk⟩ : ∃ k, max s.cfg.maxLen (nbits / 8) = k + 1 := Nat.exists_eq_add_one.2 (by omega)
  simp only [memRead, State.withFetchWord, placeInstruction, hk, wordBytes]
  exact Memory.read_writeBytes_cons hm _ _ _

/-- Where an instruction is placed no interrupt comes first: the queue is emptied if the poll is on. -/
theorem noPoll_withFetchWord (s : State) (nbits w : Nat) : noPoll (s.withFetchWord nbits w) := by
  cases hpoll : s.cfg.interruptPoll with
  | false => exact .inl hpoll
  | true => exact .inr (by simp [State.withFetchWord, placeInstruction, hpoll])

/-- The store reaches past the placed instruction. -/
theorem lt_storeLen_withFetchWord (s : State) {nbits : Nat} (w : Nat) (hn : 8 ≤ nbits) :
    s.pc.toNat < (s.withFetchWord nbits w).cfg.storeLen := by
  simp only [State.withFetchWord, placeInstruction]
  omega

/-- The token `next` reads as Step, folded or not. -/
theorem parseLine_tokenNext (fold : Bool) : parseLine fold tokenNext = .step := by
  cases fold <;> decide

/-! ## The obligations of the engine step's family -/

/-- Settles O27: a step without an entry keeps both, so in the base hardware every operation does, and the machine's
step is made of these. -/
theorem baseRegistersStayZero : Obligations.BaseRegistersStayZero := by
  refine ⟨fun h s t r e hn => engineStep_regs_of_extLength_eq_none e hn, ⟨rfl, fun i => ?_, rfl⟩,
    fun s t hbase hzero e => (base_registersZero_keptByOperations _).offerNextInput ⟨hbase, hzero⟩ e⟩
  simp

/-- Settles O15: the advance by one from an address of the store. -/
theorem nopCompletes : Obligations.NopCompletes := by
  intro s hc hl
  have ⟨_, _, hlen, _⟩ := hc
  exact exists_advancePc (n := nopLen) hc hl hlen

/-- Settles O16: NOP's one answer is the state with another pc. -/
theorem nopFrame : Obligations.NopFrame := by
  intro s t e
  obtain ⟨-, -, rfl⟩ := exec_eq_next e
  exact ⟨sameRegisters_setPc s _, sameStore_setPc s _, rfl, rfl, rfl, rfl⟩

/-- Settles O18: the step changes pc alone; from the last byte it brings pc to L, where the next step fetches
nothing. -/
theorem nopStepAdvancesPcByOne : Obligations.NopStepAdvancesPcByOne := by
  intro h s hc hp hl hop
  obtain ⟨t, e, hpc, ht⟩ := engineStep_of_nop h hp hl hc hop
  refine ⟨t, e, hpc, ht, ?_, ?_, ?_, fun hlast => ⟨hpc.trans hlast, engineStep_of_storeLen_le h ?_ ?_⟩⟩
  · rw [ht]; exact sameRegisters_setPc s _
  · rw [ht]; exact sameStore_setPc s _
  · rw [ht]; rfl
  · rw [ht]; exact hp
  · rw [engineStep_cfg e, hpc, hlast]

/-- Settles O19: only NOP's opcode decodes to an instruction, and NOP is run the same way by all three. -/
theorem stepRunsTheDecodedInstruction : Obligations.StepRunsTheDecodedInstruction := by
  intro h s i n rest _ hp hfit hd
  obtain ⟨rfl, hl, hop⟩ := nop_of_decode_memReadBytes hfit hd
  exact ⟨engineStep_eq_exec_nop h hp hl hop, runBurst_eq_exec_nop h hp hl hop,
    fun text more hidle hi hc => step_eq_exec_nop hp hl hop hidle hi hc⟩

/-- Settles O20: the bounds check comes before the fetch. -/
theorem outOfBoundsFetchChangesNothing : Obligations.OutOfBoundsFetchChangesNothing :=
  fun h _ hp hl => engineStep_of_storeLen_le h hp hl

/-- Settles O22: the entry fits and its handler runs, or it passes L and nothing is written. -/
theorem extensionEntryRunsItsHandler : Obligations.ExtensionEntryRunsItsHandler := by
  intro h s len hc hp hl hlen
  refine ⟨engineStep_of_extension h hp hl hc hlen, fun hpast => engineStep_of_case ?_⟩
  exact .outOfBounds (pollQueue_eq_none.2 hp) (.inr ⟨_, decodeTable_of_extLength hc hlen, hpast⟩)

/-- Settles O24: the frame of every step, and without the poll the same step with every queue. -/
theorem engineStepFrame : Obligations.EngineStepFrame := by
  intro h s t r e
  obtain ⟨hsess, hout⟩ := engineStep_sess_output e
  have hframe := engineStep_frame e
  refine ⟨sameStore_of_mem_eq (engineStep_mem e), engineStep_cfg e, hout, hsess, ?_, ?_,
    fun hoff => ⟨engineStep_queue hoff e, engineStep_setQueue hoff e⟩⟩
  · rw [hframe]
  · rw [hframe]

/-- Settles O25: the cases that are not out of bounds advance pc by a length of at least 1 that ends in the store. -/
theorem engineStepMovesPcForward : Obligations.EngineStepMovesPcForward := by
  rintro h s t r ⟨hc, -⟩ hp e
  have hforward {n : Nat} (hn : 1 ≤ n) (hb : s.pc.toNat + n ≤ s.cfg.storeLen) :
      s.pc.toNat < (BitVec.ofNat 32 (s.pc.toNat + n)).toNat ∧
        (BitVec.ofNat 32 (s.pc.toNat + n)).toNat ≤ s.cfg.storeLen := by
    rw [toNat_ofNat_of_le_storeLen hc hb]
    omega
  cases engineStep_cases e with
  | delivered hon hne =>
    obtain hoff | heq := hp
    · rw [hoff] at hon; cases hon
    · exact absurd heq hne
  | outOfBounds => exact .inl ⟨rfl, rfl⟩
  | unknown _ hl =>
    obtain ⟨hlt, hle⟩ := hforward (n := unknownSkip) (by decide) hl
    exact .inr ⟨hlt, hle, nofun⟩
  | instr _ hl _ _ _ _ ht =>
    obtain ⟨-, -, rfl⟩ := exec_eq_next ht
    obtain ⟨hlt, hle⟩ := hforward (n := nopLen) (by decide) hl
    exact .inr ⟨hlt, hle, nofun⟩
  | extension _ _ len hd hb =>
    obtain ⟨hlt, hle⟩ := hforward (entryLen_of_decodeTable hc hd).1 hb
    exact .inr ⟨hlt, hle, nofun⟩

/-- Settles O26: past L the run stays, and from below it goes on to L at most. -/
theorem baseEngineReachesTheEnd : Obligations.BaseEngineReachesTheEnd := by
  rintro h s n ⟨hc, -⟩ hbase hoff
  split
  · next hend => exact ⟨s, engineRun_of_storeLen_le h n (.inl hoff) hend, rfl, rfl⟩
  · next hl =>
    obtain ⟨t, e, hpc, ht⟩ := engineRun_of_baseTable h n hc hbase (.inl hoff) (Nat.le_of_not_le hl)
    exact ⟨t, e, ht, hpc⟩

/-- Settles O28: the poll takes the entry at head, and its delivery is the whole step. -/
theorem polledInterruptIsDelivered : Obligations.PolledInterruptIsDelivered :=
  fun _ _ hp hq => engineStep_of_case (.delivered hp hq)

/-- Settles O56: the placed state meets all that the step on NOP's byte needs, and leaves NOP room. -/
theorem placedNopRunsNext : Obligations.PlacedNopRunsNext := by
  intro s hm hroom
  have hstep := step_eq_exec_nop (noPoll_withFetchWord s 8 0x90) (lt_storeLen_withFetchWord s 0x90 (Nat.le_refl 8))
    (memRead_withFetchWord hm (Nat.le_refl 8)) rfl rfl (parseLine_tokenNext s.cfg.caseFold)
  have hnop := advancePc_of_lt (s := ((s.withFetchWord 8 0x90).setInputs []).setSess .stepping) (n := nopLen) hroom
  refine ⟨_, hstep.trans (congrArg (andThen · _) hnop), ?_, ⟨fun _ => rfl, rfl, rfl⟩, rfl⟩
  exact toNat_ofNat_of_lt hroom

end Sys2Proof.Machine

/-! # Queue: the order and the number of the entries, the ring's indices, and who leaves the queue alone

The claims over sequences of queue operations are inductions over the sequence. Their steps are read from the ring as
the list of its entries, from the count, and for the indices from one pair of an Enqueue and a Dequeue. -/

namespace Sys2Proof.Machine

/-! ## Sequences of queue operations -/

/-- A ring of one slot has no entry: it is empty and full at once. -/
theorem queueCount_one (q : Queue) : queueCount 1 q = 0 := Nat.mod_one _

theorem queueEntries_eq_nil {cap : Nat} {q : Queue} (hq : queueSound cap q) :
    queueEntries cap q = [] ↔ q.head = q.tail := by
  rw [← queueCount_eq_zero hq, ← length_queueEntries, List.length_eq_zero_iff]

/-- What was stored and then put in is what was taken and then is stored (R80). -/
theorem queueEntries_append_put_eq_taken_append {cap : Nat} (ops : List QueueOp) {q : Queue} (hq : queueSound cap q) :
    queueEntries cap q ++ (runQueue cap ops q).2.1 =
      (runQueue cap ops q).2.2 ++ queueEntries cap (runQueue cap ops q).1 := by
  induction ops generalizing q with
  | nil => exact List.append_nil _
  | cons op ops ih =>
    cases op with
    | put irq =>
      rw [runQueue]
      split
      · exact ih hq
      · next q' e =>
        have hentries := ih (enqueue_sound hq e)
        rwa [queueEntries_enqueue hq e, List.append_assoc] at hentries
    | take =>
      rw [runQueue]
      split
      · exact ih hq
      · next irq q' e =>
        rw [queueEntries_dequeue hq e, List.cons_append, ih (dequeue_sound hq e), List.cons_append]

/-- Enqueues all succeed exactly where the free slots, all but the one kept empty, suffice for them (R82). -/
theorem exists_enqueueAll_iff {cap : Nat} (irqs : List Interrupt) {q : Queue} (hq : queueSound cap q) :
    (∃ q', enqueueAll cap irqs q = some q') ↔ irqs.length ≤ cap - 1 - queueCount cap q := by
  induction irqs generalizing q with
  | nil => exact iff_of_true ⟨q, rfl⟩ (Nat.zero_le _)
  | cons irq rest ih =>
    rw [enqueueAll, List.length_cons]
    split
    · next e =>
      have hfull := enqueue_eq_none.1 e
      exact iff_of_false nofun (by omega)
    · next q' e =>
      rw [ih (enqueue_sound hq e), enqueue_count hq e]
      have hroom := (enqueue_eq_some.1 e).1
      have hcount := queueCount_lt hq
      omega

/-! ## One pair of an Enqueue and a Dequeue on an empty ring -/

/-- A pair on an empty ring moves both indices one slot on, round the ring; the ring of one slot has no other slot. -/
theorem exists_runQueue_put_take_cons {cap : Nat} {q : Queue} (hq : queueSound cap q) (hempty : q.head = q.tail)
    (irq : Interrupt) (ops : List QueueOp) :
    ∃ q', queueSound cap q' ∧ q'.head = (q.head + 1) % cap ∧ q'.tail = (q.head + 1) % cap ∧
      (runQueue cap (.put irq :: .take :: ops) q).1 = (runQueue cap ops q').1 := by
  have hzero : queueCount cap q = 0 := (queueCount_eq_zero hq).2 hempty
  cases e : enqueue cap irq q with
  | none =>
    have hfull := enqueue_eq_none.1 e
    have ⟨_, hhead, htail⟩ := hq
    obtain rfl : cap = 1 := by omega
    refine ⟨q, hq, by omega, by omega, ?_⟩
    simp only [runQueue, e, dequeue_eq_none.2 hempty]
  | some q' =>
    have hq' := enqueue_sound hq e
    have hcount := enqueue_count hq e
    have hne : q'.head ≠ q'.tail := (queueCount_eq_zero hq').not.1 (by omega)
    have e' : dequeue cap q' = some _ := dequeue_eq_some.2 ⟨hne, rfl, rfl⟩
    obtain ⟨-, rfl⟩ := enqueue_eq_some.1 e
    refine ⟨_, dequeue_sound hq' e', rfl, by rw [hempty], ?_⟩
    simp only [runQueue, e, e']

/-- Pairs on an empty ring move both indices as many slots on as there are pairs. -/
theorem runQueue_pairs_indices {cap : Nat} (irqs : List Interrupt) {q : Queue} (hq : queueSound cap q)
    (hempty : q.head = q.tail) :
    (runQueue cap (irqs.flatMap fun irq => [.put irq, .take]) q).1.head = (q.head + irqs.length) % cap ∧
      (runQueue cap (irqs.flatMap fun irq => [.put irq, .take]) q).1.tail = (q.head + irqs.length) % cap := by
  induction irqs generalizing q with
  | nil => exact ⟨(Nat.mod_eq_of_lt hq.2.1).symm, hempty ▸ (Nat.mod_eq_of_lt hq.2.1).symm⟩
  | cons irq rest ih =>
    obtain ⟨q', hq', hhead, htail, e⟩ := exists_runQueue_put_take_cons hq hempty irq
      (rest.flatMap fun irq => [.put irq, .take])
    rw [List.flatMap_cons, List.cons_append, List.cons_append, List.nil_append, e, List.length_cons,
      Nat.add_comm rest.length, ← Nat.add_assoc, ← Nat.mod_add_mod, ← hhead]
    exact ih hq' (hhead.trans htail.symm)

/-! ## Other records in the slots -/

theorem slotAt_mapRecords (f : Interrupt → Interrupt) {q : Queue} {k : Nat} (hk : k < q.slots.length) :
    slotAt (mapRecords f q) k = f (slotAt q k) := by
  simp [slotAt, mapRecords, hk]

/-- Dequeue picks by the indices, whatever the records are (R79). -/
theorem dequeue_mapRecords (cap : Nat) (f : Interrupt → Interrupt) {q : Queue} (hhead : q.head < q.slots.length) :
    dequeue cap (mapRecords f q) = (dequeue cap q).map fun p => (f p.1, mapRecords f p.2) := by
  by_cases hempty : q.head = q.tail
  · rw [dequeue_eq_none.2 hempty]
    exact dequeue_eq_none.2 hempty
  · rw [dequeue_eq_some.2 ⟨hempty, rfl, rfl⟩]
    exact dequeue_eq_some.2 ⟨hempty, (slotAt_mapRecords f hhead).symm, rfl⟩

/-- Enqueue accepts by the count, whatever the records are. -/
theorem enqueue_mapRecords (cap : Nat) (f : Interrupt → Interrupt) (irq : Interrupt) (q : Queue) :
    enqueue cap (f irq) (mapRecords f q) = (enqueue cap irq q).map (mapRecords f) := by
  by_cases hfull : queueCount cap q = cap - 1
  · rw [enqueue_eq_none.2 hfull]
    exact enqueue_eq_none.2 hfull
  · rw [enqueue_eq_some.2 ⟨hfull, rfl⟩]
    exact enqueue_eq_some.2 ⟨hfull, by simp only [mapRecords, List.map_set]⟩

/-- A slot of the queue's array holds the record that is read from it. -/
theorem getElem?_slots {q : Queue} {k : Nat} (hk : k < q.slots.length) : q.slots[k]? = some (slotAt q k) := by
  simp [slotAt, hk]

/-! ## The ports of the queue, and the lines that leave it alone -/

section

variable (h : Handlers) {s : State} (hidle : s.sess = .idle)

include hidle

/-- P3 in Idle on a full queue (R76). -/
theorem transact_enqueue_of_none {raw : RawInterrupt} {irq : Interrupt} (hr : recordOf raw = some irq)
    (e : enqueue s.cfg.queueCap irq s.queue = none) : transact h (.enqueue raw) s = .next (s, .queueFull) := by
  simp only [transact, whenIdle_of_idle hidle, portEnqueue, hr, e]

/-- P3 in Idle on a queue with room (R75). -/
theorem transact_enqueue_of_some {raw : RawInterrupt} {irq : Interrupt} {q : Queue} (hr : recordOf raw = some irq)
    (e : enqueue s.cfg.queueCap irq s.queue = some q) :
    transact h (.enqueue raw) s = .next (s.setQueue q, .ok) := by
  simp only [transact, whenIdle_of_idle hidle, portEnqueue, hr, e]

/-- P4 in Idle on an empty queue (R78). -/
theorem transact_dequeue_of_none (e : dequeue s.cfg.queueCap s.queue = none) :
    transact h .dequeue s = .next (s, .queueEmpty) := by
  simp only [transact, whenIdle_of_idle hidle, portDequeue, e]

/-- P4 in Idle on a queue with an entry (R77). -/
theorem transact_dequeue_of_some {irq : Interrupt} {q : Queue}
    (e : dequeue s.cfg.queueCap s.queue = some (irq, q)) :
    transact h .dequeue s = .next (s.setQueue q, .okRecord irq) := by
  simp only [transact, whenIdle_of_idle hidle, portDequeue, e]

end

theorem runBurst_queue {h : Handlers} {n : Nat} {s t : State} (hoff : s.cfg.interruptPoll = false)
    (e : runBurst h n s = .next t) : t.queue = s.queue :=
  (runBurst_keeps (P := fun u => u.cfg = s.cfg ∧ u.queue = s.queue)
    (fun u v r ⟨hcfg, hqueue⟩ hstep => by
      rw [emitResult_cfg, emitResult_queue, engineStep_cfg hstep, engineStep_queue (hcfg ▸ hoff) hstep]
      exact ⟨hcfg, hqueue⟩) n ⟨rfl, rfl⟩ e).2

/-- Without the poll no command that an operator's line selects writes the queue. -/
theorem queue_of_lineCase {h : Handlers} {text : List Byte} {s t : State} (hoff : s.cfg.interruptPoll = false)
    (c : LineCase h text s t) : t.queue = s.queue := by
  cases c with
  | run _ u e => exact (runBurst_queue (s := s.setSess .running) hoff e :)
  | step _ u r e => exact (emitResult_queue r u).trans (engineStep_queue (s := s.setSess .stepping) hoff e :)
  | halt | inspect | invalid => rfl

/-! ## The obligations of the queue's family -/

/-- Settles O36: from an empty queue there are no entries before the ones put in. -/
theorem fifoLaw : Obligations.FifoLaw := by
  intro cap ops q hq
  have horder := queueEntries_append_put_eq_taken_append ops hq
  refine ⟨horder, fun hempty => ?_⟩
  rw [(queueEntries_eq_nil hq).2 hempty, List.nil_append] at horder
  exact ⟨_, horder.symm⟩

/-- Settles O37: a Dequeue from a full queue leaves one entry less, so the next Enqueue fills it again. -/
theorem capacityLaw : Obligations.CapacityLaw := by
  intro cap q hq
  refine ⟨fun irqs => exists_enqueueAll_iff irqs hq, fun irq q' hfull e a => ?_⟩
  have hq' := dequeue_sound hq e
  have hless := dequeue_count hq e
  have hroom : enqueue cap a q' ≠ none := enqueue_eq_none.not.2 (by omega)
  obtain ⟨q'', e'⟩ := Option.ne_none_iff_exists'.1 hroom
  exact ⟨q'', e', fun b => enqueue_eq_none.2 (by rw [enqueue_count hq' e', ← hless, hfull])⟩

/-- Settles O38: each pair moves both indices one slot on, and C slots on is round the ring. -/
theorem indicesComeRoundTheRing : Obligations.IndicesComeRoundTheRing := by
  intro cap q irqs hq hempty hlen
  have hround : (q.head + irqs.length) % cap = q.head := by
    rw [hlen, Nat.add_mod_right, Nat.mod_eq_of_lt hq.2.1]
  obtain ⟨hhead, htail⟩ := runQueue_pairs_indices irqs hq hempty
  exact ⟨hhead.trans hround, (htail.trans hround).trans hempty⟩

/-- Settles O39: the slot that Dequeue reads and the one that Enqueue writes are given by the indices alone. -/
theorem selectorReadsNoRecord : Obligations.SelectorReadsNoRecord := by
  intro cap q f hq
  have hhead : q.head < q.slots.length := hq.1 ▸ hq.2.1
  refine ⟨dequeue_mapRecords cap f hhead, fun irq => enqueue_mapRecords cap f irq q, fun irq q' e => ?_⟩
  obtain ⟨-, rfl, -⟩ := dequeue_eq_some.1 e
  exact getElem?_slots hhead

/-- Settles O55: a line's transaction is one of the session's commands. -/
theorem linesNeverTouchTheQueue : Obligations.LinesNeverTouchTheQueue := by
  intro h s text t r hoff e
  obtain ⟨-, c⟩ := transact_cases e
  cases c with
  | line _ _ c => exact queue_of_lineCase hoff c

/-- Settles O33: the port answers as Enqueue does, which is full at C - 1 entries; one slot is full with none. -/
theorem enqueueAppendsAtTail : Obligations.EnqueueAppendsAtTail := by
  intro h s raw irq hidle hr _
  refine ⟨fun hfull => ?_, fun hroom => ?_, fun hone => ?_⟩
  · exact transact_enqueue_of_none h hidle hr (enqueue_eq_none.2 hfull)
  · exact transact_enqueue_of_some h hidle hr (enqueue_eq_some.2 ⟨hroom, rfl⟩)
  · exact transact_enqueue_of_none h hidle hr (enqueue_eq_none.2 (by rw [hone, queueCount_one]))

/-- Settles O34: the port answers as Dequeue does, which is empty where the indices meet; in one slot they do. -/
theorem dequeueTakesTheHead : Obligations.DequeueTakesTheHead := by
  intro h s hidle hq
  refine ⟨fun hempty => ?_, fun hne => ?_, fun hone => ?_⟩
  · exact transact_dequeue_of_none h hidle (dequeue_eq_none.2 hempty)
  · exact ⟨_, getElem?_slots (hq.1 ▸ hq.2.1), transact_dequeue_of_some h hidle (dequeue_eq_some.2 ⟨hne, rfl, rfl⟩)⟩
  · have hempty : s.queue.head = s.queue.tail := (queueCount_eq_zero hq).1 (by rw [hone, queueCount_one])
    exact transact_dequeue_of_none h hidle (dequeue_eq_none.2 hempty)

end Sys2Proof.Machine

/-! # Session: how a line is read, what each command does, how long a burst is, and what ends the session

The transaction of a line is the command that it selects. A burst is an emitting run cut after the first
OutOfBoundsFetch, so its claims are inductions over the steps left; each takes its step from one engine step and the
emission of its result. -/

namespace Sys2Proof.Machine

/-! ## The token of a line -/

/-- The token that selects a command; an invalid line has none. -/
def tokenOf : Command → List Byte
  | .run => tokenGo
  | .step => tokenNext
  | .halt => tokenStop
  | .inspect => tokenState
  | .invalid => []

/-- No command's token begins with another's. -/
theorem eq_of_tokenOf_prefix (c d : Command) :
    c ≠ .invalid → d ≠ .invalid → tokenOf c <+: tokenOf d → c = d := by
  cases c <;> cases d <;> decide

/-- A line that is not invalid begins with the token of the command it selects. -/
theorem tokenOf_parseLine_prefix (fold : Bool) (text : List Byte) :
    tokenOf (parseLine fold text) <+: matchText fold text := by
  rw [← List.isPrefixOf_iff_prefix, parseLine]
  split_ifs with hgo hnext hstop hstate
  · exact hgo
  · exact hnext
  · exact hstop
  · exact hstate
  · rfl

/-- A line is invalid exactly where it begins with no token. -/
theorem parseLine_eq_invalid {fold : Bool} {text : List Byte} :
    parseLine fold text = .invalid ↔ ∀ c ≠ .invalid, ¬ tokenOf c <+: matchText fold text := by
  constructor
  · intro hinv c hc
    rw [← List.isPrefixOf_iff_prefix]
    unfold parseLine at hinv
    split_ifs at hinv with hgo hnext hstop hstate
    cases c with
    | run => exact hgo
    | step => exact hnext
    | halt => exact hstop
    | inspect => exact hstate
    | invalid => exact absurd rfl hc
  · intro hnone
    by_contra hinv
    exact hnone _ hinv (tokenOf_parseLine_prefix fold text)

/-- A line selects a command exactly where it begins with the command's token: two tokens that begin one text are the
same. -/
theorem parseLine_eq_iff {fold : Bool} {text : List Byte} {c : Command} (hc : c ≠ .invalid) :
    parseLine fold text = c ↔ tokenOf c <+: matchText fold text := by
  constructor
  · rintro rfl
    exact tokenOf_parseLine_prefix fold text
  · intro htok
    have hval : parseLine fold text ≠ .invalid := fun hinv => parseLine_eq_invalid.1 hinv c hc htok
    obtain hle | hle := List.prefix_or_prefix_of_prefix (tokenOf_parseLine_prefix fold text) htok
    · exact eq_of_tokenOf_prefix _ _ hval hc hle
    · exact (eq_of_tokenOf_prefix _ _ hc hval hle).symm

/-- Lower-casing adds 0x20 to the capitals, which does not overflow a byte. -/
theorem toNat_lowerByte (b : Byte) :
    (lowerByte b).toNat = if 0x41 ≤ b.toNat ∧ b.toNat ≤ 0x5A then b.toNat + 0x20 else b.toNat := by
  unfold lowerByte
  split
  · next hcap => rw [if_pos (by bv_omega)]; bv_omega
  · next hcap => rw [if_neg (by bv_omega)]

/-! ## Lines and their terminators -/

theorem stripTerminator_append_crlf (t : List Byte) : stripTerminator (t ++ [0x0D, 0x0A]) = t := by
  rw [List.append_cons]
  simp [stripTerminator, lineFeed, carriageReturn]

theorem stripTerminator_append_lf {t : List Byte} (ht : t.getLast? ≠ some 0x0D) :
    stripTerminator (t ++ [0x0A]) = t := by
  rw [stripTerminator, List.getLast?_concat, List.dropLast_concat]
  exact (if_pos rfl).trans (if_neg ht)

theorem stripTerminator_of_unterminated {t : List Byte} (ht : t.getLast? ≠ some 0x0A) : stripTerminator t = t :=
  if_neg ht

/-- Cutting into lines loses no byte. -/
theorem flatten_splitLines (cur text : List Byte) : (splitLines cur text).flatten = cur ++ text := by
  induction text generalizing cur with
  | nil => rw [splitLines]; split <;> simp_all
  | cons b bs ih => rw [splitLines]; split <;> simp [ih]

/-- Each line is not empty and has a line feed at its end only, if none stands in what came before the text. -/
theorem splitLines_line {cur : List Byte} (text : List Byte) (hcur : lineFeed ∉ cur) :
    ∀ l ∈ splitLines cur text, l ≠ [] ∧ lineFeed ∉ l.dropLast := by
  induction text generalizing cur with
  | nil =>
    rw [splitLines]
    split
    · nofun
    · next hne =>
      rw [List.forall_mem_singleton]
      exact ⟨hne, fun hmem => hcur (List.mem_of_mem_dropLast hmem)⟩
  | cons b bs ih =>
    rw [splitLines]
    split
    · rw [List.forall_mem_cons, List.dropLast_concat]
      exact ⟨⟨by simp, hcur⟩, ih List.not_mem_nil⟩
    · next hb => exact ih (by simp [hcur, Ne.symm hb])

/-- Every line but the last ends with a line feed. -/
theorem splitLines_dropLast_terminated (cur text : List Byte) :
    ∀ l ∈ (splitLines cur text).dropLast, l.getLast? = some lineFeed := by
  induction text generalizing cur with
  | nil => rw [splitLines]; split <;> nofun
  | cons b bs ih =>
    rw [splitLines]
    split
    · next hb =>
      by_cases hend : splitLines [] bs = []
      · rw [hend]; nofun
      · rw [List.dropLast_cons_of_ne_nil hend, List.forall_mem_cons, List.getLast?_concat, hb]
        exact ⟨rfl, ih []⟩
    · exact ih _

/-! ## The transaction of each command -/

theorem setSess_of_sess {s : State} {v : SessionState} (hs : s.sess = v) : s.setSess v = s := by subst hs; rfl

theorem setInputs_of_inputs {s : State} {l : List Input} (hs : s.inputs = l) : s.setInputs l = s := by subst hs; rfl

section

variable (h : Handlers) {s : State} {text : List Byte} (hidle : s.sess = .idle)

include hidle

/-- A line in Idle is the command that it selects, and returns nothing (R86). -/
theorem transact_line_of_runLine {t : State} (e : runLine h text s = .next t) :
    transact h (.line text) s = .next (t, .nothing) :=
  (whenIdle_of_idle hidle _).trans (by rw [portLine, e, andThen_next])

theorem transact_line_of_run {t : State} (hc : parseLine s.cfg.caseFold text = .run)
    (e : runBurst h s.cfg.burst (s.setSess .running) = .next t) :
    transact h (.line text) s = .next (finishCommand t, .nothing) :=
  transact_line_of_runLine h hidle (by rw [runLine, hc]; exact commandRun_eq_next.2 ⟨t, e, rfl⟩)

theorem transact_line_of_inspect (hc : parseLine s.cfg.caseFold text = .inspect) :
    transact h (.line text) s = .next (finishCommand (s.setSess .inspecting), .nothing) :=
  transact_line_of_runLine h hidle (by rw [runLine, hc]; rfl)

theorem transact_line_of_halt (hc : parseLine s.cfg.caseFold text = .halt) :
    transact h (.line text) s = .next (s.setSess .halted, .nothing) :=
  transact_line_of_runLine h hidle (by rw [runLine, hc]; rfl)

theorem transact_line_of_invalid (hc : parseLine s.cfg.caseFold text = .invalid) :
    transact h (.line text) s =
      .next (s.emit (.diagnostic (.invalidCommand (stripTerminator text))), .nothing) :=
  transact_line_of_runLine h hidle (by rw [runLine, hc]; rfl)

/-- A line leaves the session Idle unless it reads as Halt. -/
theorem sess_of_lineCase {t : State} (c : LineCase h text s t) (hc : parseLine s.cfg.caseFold text ≠ .halt) :
    t.sess = .idle := by
  cases c with
  | run | step | inspect => rfl
  | halt hhalt => exact absurd hhalt hc
  | invalid => exact hidle

end

/-- A transaction that ends in Halted is the end of input's, or that of a line read as Halt (R103). -/
theorem input_of_transact_halted {h : Handlers} {i : Input} {s t : State} {r : PortResult}
    (e : transact h i s = .next (t, r)) (ht : t.sess = .halted) :
    i = .endOfInput ∨ ∃ text, i = .line text ∧ parseLine s.cfg.caseFold text = .halt := by
  obtain ⟨hidle, c⟩ := transact_cases e
  have hlive : s.sess ≠ .halted := by rw [hidle]; nofun
  cases c with
  | endOfInput => exact .inl rfl
  | line text _ c =>
    by_contra hother
    have hc : parseLine s.cfg.caseFold text ≠ .halt := fun hc => hother (.inr ⟨text, rfl, hc⟩)
    rw [sess_of_lineCase h hidle c hc] at ht
    cases ht
  | queueFull | enqueued | queueEmpty | dequeued | delivered | stored => exact absurd ht hlive

/-! ## The burst, step by step -/

/-- The results that do not end a burst are those other than OutOfBoundsFetch (R92). -/
theorem endsBurst_eq_false {r : StepResult} : r.endsBurst = false ↔ ∀ p, r ≠ .outOfBoundsFetch p := by
  cases r <;> simp [StepResult.endsBurst]

theorem runBurst_succ_of_outOfBounds {h : Handlers} {s t : State} {p : Addr}
    (e : engineStep h s = .next (t, .outOfBoundsFetch p)) (n : Nat) :
    runBurst h (n + 1) s = .next (emitResult (.outOfBoundsFetch p) t) := by
  rw [runBurst, e, andThen_next]
  rfl

theorem runBurst_succ_of_continues {h : Handlers} {s t : State} {r : StepResult}
    (e : engineStep h s = .next (t, r)) (hr : ∀ p, r ≠ .outOfBoundsFetch p) (n : Nat) :
    runBurst h (n + 1) s = runBurst h n (emitResult r t) := by
  rw [runBurst, e, andThen_next, endsBurst_eq_false.2 hr]
  rfl

theorem emittingRun_succ {h : Handlers} {s t : State} {r : StepResult} (e : engineStep h s = .next (t, r)) (n : Nat) :
    emittingRun h (n + 1) s = emittingRun h n (emitResult r t) := by
  rw [emittingRun, e, andThen_next]

/-- The results of a run after its first step are those of the run from there. -/
theorem resultAt_succ {h : Handlers} {s t : State} {r : StepResult} (e : engineStep h s = .next (t, r)) (k : Nat) :
    resultAt h (k + 1) s = resultAt h k (emitResult r t) := by
  rw [resultAt, resultAt, emittingRun_succ e]

theorem resultAt_zero {h : Handlers} {s : State} {r : StepResult} :
    resultAt h 0 s = some r ↔ ∃ t, engineStep h s = .next (t, r) := by
  rw [resultAt, emittingRun, andThen_next]
  cases engineStep h s with
  | next p => obtain ⟨t, r'⟩ := p; simp
  | fault | refused => simp

/-- The first `n` engine steps from `s` answer, none with OutOfBoundsFetch (R93's N is at least `n`). -/
def StepsInBounds (h : Handlers) (n : Nat) (s : State) : Prop :=
  ∀ k < n, ∃ r, resultAt h k s = some r ∧ ∀ p, r ≠ .outOfBoundsFetch p

theorem stepsInBounds_succ {h : Handlers} {n : Nat} {s : State} :
    StepsInBounds h (n + 1) s ↔ ∃ t r, engineStep h s = .next (t, r) ∧ (∀ p, r ≠ .outOfBoundsFetch p) ∧
      StepsInBounds h n (emitResult r t) := by
  constructor
  · intro hin
    obtain ⟨r, hres, hr⟩ := hin 0 n.succ_pos
    obtain ⟨t, e⟩ := resultAt_zero.1 hres
    refine ⟨t, r, e, hr, fun k hk => ?_⟩
    rw [← resultAt_succ e]
    exact hin (k + 1) (Nat.succ_lt_succ hk)
  · rintro ⟨t, r, e, hr, hin⟩ k hk
    cases k with
    | zero => exact ⟨r, resultAt_zero.2 ⟨t, e⟩, hr⟩
    | succ k => rw [resultAt_succ e]; exact hin k (Nat.lt_of_succ_lt_succ hk)

/-- A burst whose steps are all in bounds takes every one of them. -/
theorem runBurst_of_stepsInBounds {h : Handlers} (b : Nat) {s : State} (hin : StepsInBounds h b s) :
    runBurst h b s = emittingRun h b s := by
  induction b generalizing s with
  | zero => rfl
  | succ b ih =>
    obtain ⟨t, r, e, hr, hin'⟩ := stepsInBounds_succ.1 hin
    rw [runBurst_succ_of_continues e hr, emittingRun_succ e, ih hin']

/-- A burst ends after the first step out of bounds, if it gets there (R93). -/
theorem runBurst_of_outOfBounds_at {h : Handlers} (b n : Nat) {s : State} {p : Addr} (hin : StepsInBounds h n s)
    (hout : resultAt h n s = some (.outOfBoundsFetch p)) : runBurst h b s = emittingRun h (min b (n + 1)) s := by
  induction n generalizing b s with
  | zero =>
    obtain ⟨t, e⟩ := resultAt_zero.1 hout
    cases b with
    | zero => rfl
    | succ b =>
      rw [runBurst_succ_of_outOfBounds e, Nat.add_min_add_right, Nat.min_zero, emittingRun_succ e]
      rfl
  | succ n ih =>
    obtain ⟨t, r, e, hr, hin'⟩ := stepsInBounds_succ.1 hin
    cases b with
    | zero => rw [Nat.zero_min]; rfl
    | succ b =>
      rw [runBurst_succ_of_continues e hr, Nat.add_min_add_right, emittingRun_succ e]
      exact ih b hin' (by rwa [← resultAt_succ e])

/-! ## What a burst emits -/

theorem engineStep_emits {h : Handlers} {s t : State} {r : StepResult} (e : engineStep h s = .next (t, r)) :
    ∃ ds : List Diagnostic, ds.length ≤ 1 ∧ (emitResult r t).output = s.output ++ ds.map .diagnostic := by
  rw [← (engineStep_sess_output e).2]
  exact emitResult_output r t

/-- A burst emits at most one diagnostic a step, and no snapshot (R102). -/
theorem runBurst_emits {h : Handlers} (n : Nat) {s t : State} (e : runBurst h n s = .next t) :
    ∃ ds : List Diagnostic, ds.length ≤ n ∧ t.output = s.output ++ ds.map .diagnostic := by
  induction n generalizing s with
  | zero => cases e; exact ⟨[], Nat.le_refl 0, (List.append_nil _).symm⟩
  | succ n ih =>
    obtain ⟨⟨u, r⟩, hstep, hk⟩ := andThen_eq_next.1 e
    obtain ⟨ds, hlen, hout⟩ := engineStep_emits hstep
    split at hk
    · cases hk
      exact ⟨ds, by omega, hout⟩
    · obtain ⟨ds', hlen', hout'⟩ := ih hk
      refine ⟨ds ++ ds', by rw [List.length_append]; omega, ?_⟩
      rw [hout', hout, List.map_append, List.append_assoc]

/-! ## Steps and bursts of the base hardware -/

/-- The base hardware without the poll (00_scope.md R9), over any store that R10 admits. -/
def BaseConfig (c : Config) : Prop := c.wf ∧ c.extTable = [] ∧ c.interruptPoll = false

/-- Emitting a result writes the output stream only. -/
theorem emitResult_eq (r : StepResult) (s : State) :
    emitResult r s = { s with output := (emitResult r s).output } := by
  cases r <;> rfl

/-- A step out of bounds changes nothing, so a step that moves pc is none. -/
theorem ne_outOfBounds_of_pc_ne {h : Handlers} {s t : State} {r : StepResult} (e : engineStep h s = .next (t, r))
    (hpc : t.pc ≠ s.pc) (p : Addr) : r ≠ .outOfBoundsFetch p := by
  rintro rfl
  cases engineStep_cases e
  exact hpc rfl

/-- A step of the base hardware below L, with its emission: pc goes one further, and of the rest only the output
changes. -/
theorem baseStep_of_lt (h : Handlers) {s : State} (hb : BaseConfig s.cfg) (hl : s.pc.toNat < s.cfg.storeLen) :
    ∃ t r, engineStep h s = .next (t, r) ∧ (∀ p, r ≠ .outOfBoundsFetch p) ∧
      (emitResult r t).pc.toNat = s.pc.toNat + 1 ∧
      emitResult r t = { s with pc := (emitResult r t).pc, output := (emitResult r t).output } := by
  obtain ⟨hc, htable, hoff⟩ := hb
  obtain ⟨t, r, e, hpc, ht⟩ := engineStep_of_baseTable h hc htable (.inl hoff) hl
  refine ⟨t, r, e, ne_outOfBounds_of_pc_ne e fun heq => ?_, by rw [emitResult_pc, hpc], ?_⟩
  · rw [heq] at hpc; omega
  · rw [emitResult_eq, ht]; rfl

/-- In the base hardware N of R93 is L - pc, or 0 past L. -/
theorem base_stepsInBounds (h : Handlers) {s : State} (hb : BaseConfig s.cfg) {n : Nat}
    (hn : n = s.cfg.storeLen - s.pc.toNat) :
    StepsInBounds h n s ∧ ∃ p, resultAt h n s = some (.outOfBoundsFetch p) := by
  induction n generalizing s with
  | zero =>
    obtain ⟨-, -, hoff⟩ := hb
    have hout := engineStep_of_storeLen_le h (.inl hoff) (Nat.le_of_sub_eq_zero hn.symm)
    exact ⟨nofun, s.pc, resultAt_zero.2 ⟨s, hout⟩⟩
  | succ n ih =>
    obtain ⟨t, r, e, hr, hpc, ht⟩ := baseStep_of_lt h hb (by omega)
    have hcfg : (emitResult r t).cfg = s.cfg := by rw [ht]
    obtain ⟨hin, p, hout⟩ := ih (s := emitResult r t) (by rwa [hcfg]) (by rw [hcfg, hpc]; omega)
    exact ⟨stepsInBounds_succ.2 ⟨t, r, e, hr, hin⟩, p, by rwa [resultAt_succ e]⟩

/-- A burst of the base hardware writes pc and the output only, and brings pc its steps further, or to L at most. -/
theorem base_runBurst (h : Handlers) (n : Nat) {s : State} (hb : BaseConfig s.cfg) :
    ∃ t, runBurst h n s = .next t ∧ t = { s with pc := t.pc, output := t.output } ∧
      t.pc.toNat = if s.cfg.storeLen ≤ s.pc.toNat then s.pc.toNat
        else min (s.pc.toNat + n) s.cfg.storeLen := by
  induction n generalizing s with
  | zero => exact ⟨s, rfl, rfl, by split <;> omega⟩
  | succ n ih =>
    obtain hend | hl := le_or_gt s.cfg.storeLen s.pc.toNat
    · obtain ⟨-, -, hoff⟩ := hb
      have hout := engineStep_of_storeLen_le h (.inl hoff) hend
      exact ⟨_, runBurst_succ_of_outOfBounds hout n, rfl, (if_pos hend).symm⟩
    · obtain ⟨u, r, e, hr, hpc, hu⟩ := baseStep_of_lt h hb hl
      have hcfg : (emitResult r u).cfg = s.cfg := by rw [hu]
      obtain ⟨t, ht, heq, hpc'⟩ := ih (s := emitResult r u) (by rwa [hcfg])
      refine ⟨t, by rw [runBurst_succ_of_continues e hr, ht], by rw [heq, hu], ?_⟩
      rw [hpc', hpc, hcfg, if_neg (Nat.not_le.2 hl)]
      split <;> omega

/-! ## The obligations of the session's family -/

/-- Settles O42: the text that the tokens are compared with begins with one token at most. -/
theorem lineSelectsTheTokenItBeginsWith : Obligations.LineSelectsTheTokenItBeginsWith := by
  refine ⟨fun fold text => ⟨parseLine_eq_iff (c := .run) nofun, parseLine_eq_iff (c := .step) nofun,
    parseLine_eq_iff (c := .halt) nofun, parseLine_eq_iff (c := .inspect) nofun, ?_⟩, toNat_lowerByte⟩
  refine parseLine_eq_invalid.trans ⟨fun hnone => ⟨hnone .run nofun, hnone .step nofun, hnone .halt nofun,
    hnone .inspect nofun⟩, ?_⟩
  rintro ⟨hgo, hnext, hstop, hstate⟩ c hc
  cases c with
  | run => exact hgo
  | step => exact hnext
  | halt => exact hstop
  | inspect => exact hstate
  | invalid => exact absurd rfl hc

/-- Settles O43: what is cut off is put back by joining the lines, each of which ends where its line feed is. -/
theorem linesEndAtLineFeeds : Obligations.LinesEndAtLineFeeds :=
  ⟨stripTerminator_append_crlf, fun _ => stripTerminator_append_lf, fun _ => stripTerminator_of_unterminated,
    fun text => ⟨flatten_splitLines [] text, splitLines_line text List.not_mem_nil,
      splitLines_dropLast_terminated [] text, rfl⟩⟩

/-- Settles O45: the engine step of a sound core answers, and the command is that step and its end. -/
theorem stepCommandRunsOneStep : Obligations.StepCommandRunsOneStep := by
  rintro h s text ⟨⟨hwf, -⟩, -⟩ hidle hc
  obtain ⟨t, r, e⟩ := engineStep_answers h (s := s.setSess .stepping) hwf
  refine ⟨t, r, e, ?_⟩
  rw [transact_line_of_step h hidle hc, commandStep_eq_next.2 ⟨t, r, e, rfl⟩, andThen_next, finishCommand_eq,
    emitResult_eq]

/-- Settles O46: the burst of a sound core answers, and the loop's equations are its definition's. -/
theorem runCommandRunsABurst : Obligations.RunCommandRunsABurst := by
  refine ⟨fun h s text ⟨hs, _⟩ hidle hc => ?_, fun _ _ => rfl, fun _ n _ _ _ e => runBurst_succ_of_outOfBounds e n,
    fun _ n _ _ _ e hr => runBurst_succ_of_continues e hr n⟩
  obtain ⟨t, e⟩ := runBurst_answers_of_sound h s.cfg.burst (s := s.setSess .running) hs
  exact ⟨t, e, transact_line_of_run h hidle hc e⟩

/-- Settles O47: a burst and an emitting run go the same way as long as no result ends the burst. -/
theorem burstLaw : Obligations.BurstLaw :=
  ⟨fun _ _ b n hin ⟨_, hout⟩ => runBurst_of_outOfBounds_at b n hin hout,
    fun _ _ b hin => runBurst_of_stepsInBounds b hin,
    fun h _ ⟨hwf, _⟩ htable hoff => base_stepsInBounds h ⟨hwf, htable, hoff⟩ rfl⟩

/-- Settles O48: the burst brings pc there, and the end of the command writes neither pc nor the rest. -/
theorem baseRunAdvancesByTheBurstOrToTheEnd : Obligations.BaseRunAdvancesByTheBurstOrToTheEnd := by
  rintro h s text ⟨⟨hwf, -⟩, -⟩ hidle htable hoff hc
  obtain ⟨t, e, ht, hpc⟩ := base_runBurst h s.cfg.burst (s := s.setSess .running) ⟨hwf, htable, hoff⟩
  refine ⟨_, transact_line_of_run h hidle hc e, ?_, ?_, ?_, hpc⟩
  all_goals rw [ht]
  · exact ⟨fun _ => rfl, rfl, rfl⟩
  · exact fun _ => rfl
  · rfl

/-- Settles O52: no port accepts an input in a session that is not Idle, and the refused input is withdrawn. -/
theorem haltedIsTerminal : Obligations.HaltedIsTerminal := by
  have hrefused (h : Handlers) (i : Input) (s : State) (hs : s.sess = .halted) :
      ∃ why, transact h i s = .refused why :=
    transact_refused fun ha => by cases hs.symm.trans (sess_of_accepts ha)
  refine ⟨hrefused, fun s hs => ?_⟩
  cases hi : s.inputs with
  | nil =>
    refine ⟨s.lastResult, (offerNextInput_nil _ hi).trans ?_⟩
    rw [List.tail_nil, setInputs_of_inputs hi]
    rfl
  | cons i rest =>
    obtain ⟨why, e⟩ := hrefused Config.extHandlers i (s.setInputs rest) hs
    exact ⟨.refused why, offerNextInput_of_refused hi e⟩

/-- Settles O53: waiting and a refusal leave the session, and of the transactions these two alone halt it. -/
theorem sessionEndsOnlyByHaltOrEndOfInput : Obligations.SessionEndsOnlyByHaltOrEndOfInput := by
  intro s t e hlive ht
  obtain ⟨-, rfl⟩ | ⟨i, rest, u, r, hi, hu, rfl⟩ | ⟨i, rest, why, -, -, rfl⟩ := offerNextInput_cases e
  · exact absurd ht hlive
  · exact ⟨i, rest, hi, input_of_transact_halted (s := s.setInputs rest) hu ht⟩
  · exact absurd ht hlive

/-- Settles O54: the diagnostics are those of the engine step or of the burst, or the invalid line's own. -/
theorem commandsEmitTheStatedEvents : Obligations.CommandsEmitTheStatedEvents := by
  refine ⟨fun h s text t r e => ?_, fun h s t r e => ?_⟩
  · obtain ⟨-, c⟩ := transact_cases e
    cases c with | line _ _ c =>
    cases c with
    | run hc u hu =>
      obtain ⟨ds, hlen, hout⟩ := runBurst_emits _ hu
      rw [hc]
      exact ⟨ds, nofun, fun _ => ⟨hlen, congrArg (· ++ _) hout⟩, nofun, nofun, nofun⟩
    | step hc u r hu =>
      obtain ⟨ds, hlen, hout⟩ := engineStep_emits hu
      rw [hc]
      exact ⟨ds, fun _ => ⟨hlen, congrArg (· ++ _) hout⟩, nofun, nofun, nofun, nofun⟩
    | halt hc => rw [hc]; exact ⟨[], nofun, nofun, nofun, fun _ => rfl, nofun⟩
    | inspect hc => rw [hc]; exact ⟨[], nofun, nofun, fun _ => rfl, nofun, nofun⟩
    | invalid hc => rw [hc]; exact ⟨[_], nofun, nofun, nofun, nofun, fun _ => ⟨rfl, rfl⟩⟩
  · obtain ⟨-, c⟩ := transact_cases e
    cases c with
    | endOfInput => rfl

/-- Settles O8: the machine's step looks for an input first. -/
theorem waitingChangesNothing : Obligations.WaitingChangesNothing := fun _ hi => offerNextInput_nil _ hi

/-- Settles O44: the emission and the codes are read off for each result. -/
theorem engineFaultsBecomeDiagnostics : Obligations.EngineFaultsBecomeDiagnostics :=
  fun _ _ _ _ _ => ⟨rfl, rfl, rfl, rfl, rfl, rfl⟩

/-- Settles O49: Inspect is the end of a command alone, and brings the session back to Idle, where it was. -/
theorem inspectEmitsOneSnapshot : Obligations.InspectEmitsOneSnapshot := by
  intro h s text hidle hc
  have hback : finishCommand (s.setSess .inspecting) = s.emit (.snapshot (snapshotOf s)) :=
    setSess_of_sess (s := s.emit _) hidle
  rw [transact_line_of_inspect h hidle hc, hback]
  rfl

/-- Settles O50: both write the session state and nothing else. -/
theorem haltAndEndOfInputAgree : Obligations.HaltAndEndOfInputAgree :=
  fun h _ _ hidle hc => ⟨transact_line_of_halt h hidle hc, whenIdle_of_idle hidle _⟩

/-- Settles O51: the command is one emission. -/
theorem invalidCommandEmitsOneDiagnostic : Obligations.InvalidCommandEmitsOneDiagnostic :=
  fun h _ _ hidle hc => ⟨transact_line_of_invalid h hidle hc, rfl⟩

end Sys2Proof.Machine

/-! # Exceptions: which result a step reports, what a delivery writes, and what a polling run delivers

A result is the step's when one of its phases gives it, since a step answers once. A delivery in a sound state writes pc
and the queue alone, `pend` being 0 already, so a polling run is an induction over the stored entries, oldest first. -/

namespace Sys2Proof.Machine

/-! ## The one result of a step -/

/-- What comes before the fetch is a poll that is on with an entry in the queue (R61). -/
theorem poll_of_not_noPoll {s : State} (hp : ¬ noPoll s) :
    s.cfg.interruptPoll = true ∧ s.queue.head ≠ s.queue.tail := by
  obtain ⟨hon, hne⟩ := not_or.1 hp
  exact ⟨Bool.eq_true_of_not_eq_false hon, hne⟩

theorem engineStep_result_unique {h : Handlers} {s t t' : State} {r r' : StepResult}
    (e : engineStep h s = .next (t, r)) (e' : engineStep h s = .next (t', r')) : r = r' := by
  cases e.symm.trans e'
  rfl

/-- An entry that passes L is not executed (R66). -/
theorem engineStep_of_entry_past (h : Handlers) {s : State} (hp : noPoll s) {e : TableEntry}
    (hd : decodeTable s.cfg (memRead s s.pc.toNat) = some e) (hpast : s.cfg.storeLen < s.pc.toNat + entryLen e) :
    engineStep h s = .next (s, .outOfBoundsFetch s.pc) :=
  engineStep_of_case (.outOfBounds (pollQueue_eq_none.2 hp) (.inr ⟨e, hd, hpast⟩))

/-- An entry whose bytes lie in the store of a well-formed configuration runs to its end. -/
theorem exists_engineStep_of_entry (h : Handlers) {s : State} (hc : s.cfg.wf) (hp : noPoll s)
    (hl : s.pc.toNat < s.cfg.storeLen) {e : TableEntry}
    (hd : decodeTable s.cfg (memRead s s.pc.toNat) = some e) (hfit : s.pc.toNat + entryLen e ≤ s.cfg.storeLen) :
    ∃ t, engineStep h s = .next (t, .ok) := by
  obtain ⟨t, ht⟩ := runEntry_answers (h := h) (op := memRead s s.pc.toNat) hc hl (entryLen_of_decodeTable hc hd).2
  exact ⟨t, by rw [engineStep_of_entry h hp hl hd hfit, ht, andThen_next]⟩

/-! ## Deliveries, by the port and by the poll -/

/-- P5 in Idle with a record that the port carries in. -/
theorem transact_deliver_of_some (h : Handlers) {s : State} (hidle : s.sess = .idle) {raw : RawInterrupt}
    {irq : Interrupt} (hr : recordOf raw = some irq) : transact h (.deliver raw) s = .next (deliver irq s, .ok) := by
  simp only [transact, whenIdle_of_idle hidle, portDeliver, hr]

/-- Where `pend` is 0 already, what a delivery writes is pc. -/
theorem deliver_of_pend (irq : Interrupt) {s : State} (hpend : s.pend = false) :
    deliver irq s = s.setPc s.cfg.dispatchTarget := by
  rw [deliver_eq, State.setPend, ← hpend]
  rfl

section

variable (h : Handlers) {s : State} (hs : engineSound s) (hon : s.cfg.interruptPoll = true)

include hs hon

/-- With the poll on, the oldest stored entry is delivered, and the step writes nothing but the queue and pc. -/
theorem engineStep_of_queueEntries_cons {irq : Interrupt} {rest : List Interrupt}
    (hentries : queueEntries s.cfg.queueCap s.queue = irq :: rest) :
    ∃ q, engineStep h s = .next ((s.setQueue q).setPc s.cfg.dispatchTarget, .delivered irq) ∧
      queueEntries s.cfg.queueCap q = rest := by
  obtain ⟨-, hqueue, -, hpend⟩ := hs
  have hne : s.queue.head ≠ s.queue.tail := fun heq => by
    have hlen := length_queueEntries s.cfg.queueCap s.queue
    rw [hentries, (queueCount_eq_zero hqueue).2 heq] at hlen
    cases hlen
  have htaken := queueEntries_dequeue hqueue (dequeue_eq_some.2 ⟨hne, rfl, rfl⟩)
  obtain ⟨rfl, rfl⟩ := List.cons.inj (hentries.symm.trans htaken)
  refine ⟨_, (engineStep_of_case (.delivered hon hne)).trans ?_, rfl⟩
  rw [deliver_of_pend _ (by exact hpend), State.setQueue_cfg]

/-- A polling run delivers the oldest entries, one a step, and leaves the others in the queue (R116). -/
theorem engineRun_of_queueEntries_append {irqs rest : List Interrupt}
    (hentries : queueEntries s.cfg.queueCap s.queue = irqs ++ rest) :
    ∃ q, engineRun h irqs.length s =
        .next ((s.setQueue q).setPc (if irqs = [] then s.pc else s.cfg.dispatchTarget)) ∧
      queueEntries s.cfg.queueCap q = rest := by
  induction irqs generalizing s with
  | nil => exact ⟨s.queue, rfl, hentries⟩
  | cons irq irqs ih =>
    obtain ⟨q, e, hq⟩ := engineStep_of_queueEntries_cons h hs hon hentries
    obtain ⟨q', e', hq'⟩ := ih (engineSound_engineStep hs e) hon hq
    refine ⟨q', ?_, hq'⟩
    rw [List.length_cons, engineRun, e, andThen_next, e', if_neg (List.cons_ne_nil _ _)]
    simp only [State.setPc_pc, State.setPc_cfg, State.setQueue_cfg, ite_self]
    rfl

/-- Step `k` of a polling run reports the delivery of entry `k`. -/
theorem resultAt_of_queueEntries {irqs : List Interrupt} (hentries : queueEntries s.cfg.queueCap s.queue = irqs)
    {k : Nat} {irq : Interrupt} (hk : irqs[k]? = some irq) : resultAt h k s = some (.delivered irq) := by
  induction irqs generalizing s k with
  | nil => cases hk
  | cons first rest ih =>
    obtain ⟨q, e, hq⟩ := engineStep_of_queueEntries_cons h hs hon hentries
    cases k with
    | zero => cases hk; exact resultAt_zero.2 ⟨_, e⟩
    | succ k => rw [resultAt_succ e]; exact ih (engineSound_engineStep hs e) hon hq hk

end

/-! ## The obligations of the exceptions' family -/

/-- Settles O23: the step of a sound state answers, and each phase that applies gives the answer's result. -/
theorem firstApplicablePhaseDecidesTheResult : Obligations.FirstApplicablePhaseDecidesTheResult := by
  rintro h s ⟨hc, -⟩
  obtain ⟨t, r, e⟩ := engineStep_answers h hc
  refine ⟨t, r, e, fun hp => ?_, fun hp hl => ?_, fun hp hl => ⟨fun hd => ?_, fun en hd => ⟨fun hpast => ?_,
    fun hfit => ?_⟩⟩⟩
  · obtain ⟨hon, hne⟩ := poll_of_not_noPoll hp
    exact engineStep_result_unique e (engineStep_of_case (.delivered hon hne))
  · exact engineStep_result_unique e (engineStep_of_storeLen_le h hp hl)
  · obtain ⟨_, e', -⟩ := engineStep_of_unregistered h hp hl hc hd
    exact engineStep_result_unique e e'
  · exact engineStep_result_unique e (engineStep_of_entry_past h hp hd hpast)
  · obtain ⟨_, e'⟩ := exists_engineStep_of_entry h hc hp hl hd hfit
    exact engineStep_result_unique e e'

/-- Settles O31: the n oldest entries are delivered, and the state after them is the first one but for queue and pc. -/
theorem pollingRunDeliversTheOldestFirst : Obligations.PollingRunDeliversTheOldestFirst := by
  intro h s n hs hon hn
  rw [← length_queueEntries] at hn
  refine ⟨?_, fun k hk => ?_⟩
  · obtain ⟨q, e, hq⟩ := engineRun_of_queueEntries_append h hs hon (List.take_append_drop n _).symm
    have hlen := List.length_take_of_le hn
    rw [hlen] at e
    refine ⟨_, e, ⟨fun _ => rfl, rfl, rfl⟩, fun _ => rfl, hq, fun hpos => if_neg ?_⟩
    exact List.ne_nil_of_length_pos (by rwa [hlen])
  · have hget := List.getElem?_eq_getElem (hk.trans_le hn)
    rw [resultAt_of_queueEntries h hs hon rfl hget, hget, Option.map_some]

/-- Settles O29: the port and the poll both perform the one operation, and a step after it starts at the target. -/
theorem deliveryWritesPcAndPend : Obligations.DeliveryWritesPcAndPend := by
  refine ⟨fun _ _ => rfl, fun _ _ _ => rfl, fun h raw s hidle hk => ?_, fun h s hp => ?_,
    fun h irq s hp hl => engineStep_of_storeLen_le h (s := deliver irq s) hp hl⟩
  · obtain ⟨irq, hr⟩ := exists_recordOf hk
    exact ⟨irq, hr, transact_deliver_of_some h hidle hr⟩
  · obtain ⟨hon, hne⟩ := poll_of_not_noPoll hp
    exact ⟨_, engineStep_of_case (.delivered hon hne)⟩

/-- Settles O30: pc is overwritten, and the operation has no use for the record. -/
theorem deliveryKeepsNoReturnContext : Obligations.DeliveryKeepsNoReturnContext := fun _ _ _ _ => rfl

end Sys2Proof.Machine

/-! # Other: the reset state is a constructed core, and every constructed core is sound

P0 checks the configuration and the image, and sets the queue, `pend` and the session itself, so whatever it constructs
meets the invariant that every step keeps. The reset state is one such construction. -/

namespace Sys2Proof.Machine

/-- The base configuration is well-formed over every store that R10 admits at an instruction length of 1. -/
theorem base_wf {len : Nat} (hlen : len + 1 ≤ addrSpace) : (Config.base len).wf :=
  ⟨(by decide : 1 ≤ 256), (by decide : 1 ≤ 1000), Nat.le_refl 1, hlen, List.forall_mem_nil _, List.forall_mem_nil _⟩

/-- P0 answers only where both of its checks pass (R125). -/
theorem checks_of_construct {slots : Nat → Interrupt} {cfg : Config} {image : Memory} {t : State}
    (e : construct slots cfg image = .next t) :
    cfg.wf ∧ Memory.wf image ∧ ∀ c ∈ image, c.1 < cfg.storeLen := by
  unfold construct at e
  split at e
  · cases e
  next hcfg =>
    split at e
    · cases e
    next himage => exact ⟨not_not.1 hcfg, not_not.1 himage⟩

/-- Whatever P0 constructs is sound: its indices are 0, below the capacity that R10 makes positive. -/
theorem coreSound_of_construct {slots : Nat → Interrupt} {cfg : Config} {image : Memory} {t : State}
    (e : construct slots cfg image = .next t) : coreSound t := by
  obtain ⟨hcfg, himage⟩ := checks_of_construct e
  obtain rfl := Host.Outcome.next.inj ((construct_answers slots hcfg himage).symm.trans e)
  have hcap : 0 < cfg.queueCap := hcfg.1
  have hslots : ((List.range cfg.queueCap).map slots).length = cfg.queueCap := by
    rw [List.length_map, List.length_range]
  exact ⟨⟨hcfg, ⟨hslots, hcap, hcap⟩, himage, rfl⟩, .inl rfl⟩

/-! ## The obligations of the family 'other' -/

/-- Settles O2: the base configuration and the image of zeros pass P0's checks, and every slot gets the one record. -/
theorem resetIsTheConstructedBaseCore : Obligations.ResetIsTheConstructedBaseCore := by
  refine (construct_answers _ (base_wf (Nat.le_refl _)) ⟨reset_mem_wf, List.forall_mem_nil _⟩).trans ?_
  rw [List.map_const', List.length_range]
  rfl

/-- Settles O3: the reset state is a constructed core. -/
theorem resetStateIsSound : Obligations.ResetStateIsSound := coreSound_of_construct resetIsTheConstructedBaseCore

end Sys2Proof.Machine
